-- ==== Sys2Proof/Word.lean ====
section
/-! DEFINITION. The word types of the machine: a byte of instruction memory, a T32 halfword, a 32-bit word. -/

namespace Sys2Proof

/-- One byte of instruction memory (20_memory.md R30). -/
abbrev Byte := BitVec 8

/-- One 16-bit unit of a T32 instruction (00_scope.md R4). -/
abbrev Half := BitVec 16

/-- A 32-bit value: a general-purpose register, `pc`, an SPSR, an instruction (00_scope.md R4, 10_state.md R11, R13). -/
abbrev Word := BitVec 32

end Sys2Proof
end

