-- ==== Sys2Proof/Config.lean ====
section
/-! DEFINITION. What an implementation fixes and what the spec leaves free (00_scope.md R5). The two constants without a
body are opaque: nothing can evaluate them, so a theorem holds whatever they are. -/

namespace Sys2Proof.Config

/-- The two behaviours the source allows an `MRS` of the SPSR in User or System mode (40_mrs.md R66, decision D14). -/
inductive CuMrsSpsr where
  | undef
  | nop
deriving DecidableEq, Repr, Inhabited

/-- `CU_MRS_SPSR_USR_SYS`, fixed per implementation and left OPEN by the spec (D14): no body, so a claim proved of it
holds for both values (log 5). -/
opaque cuMrsSpsrUsrSys : CuMrsSpsr

/-- `UNKNOWN32` (10_state.md R25, decision D12): the 32 bits the `n`-th draw of a run takes, under no law (log 4). -/
opaque unknown32 : Nat → Word

/-- The parameters of 00_scope.md R5 that a step reads and that are fixed for a machine. The meanings take them as an
argument, so that a claim can be made for every value of each. -/
structure Params where
  /-- `CU_MRS_SPSR_USR_SYS` (R66). -/
  cuMrsSpsrUsrSys : CuMrsSpsr
  /-- `ADMIT_IT_BLOCK` (R61, D17). -/
  admitItBlock : Bool
deriving DecidableEq, Repr

end Sys2Proof.Config
end

