-- ==== Sys2Proof/Syntax.lean ====
section
/-! DEFINITION. The instructions: one constructor per row of spec/opcode_table.json, with the operands the decoder
returns (30_encoding.md R40, R52). -/

namespace Sys2Proof

/-- The two instruction sets `MRS` has an encoding in (00_scope.md R1, 30_encoding.md R40). -/
inductive InstrSet where
  | a32
  | t32
deriving DecidableEq, Repr

/-- `<spec_reg>`, the value of the field `R` (30_encoding.md R54): `R = 0` is `CPSR` or `APSR`, the same register read
under two names (10_state.md R21); `R = 1` is `SPSR`. -/
inductive SpecReg where
  | cpsr
  | spsr
deriving DecidableEq, Repr

/-- The instructions of the opcode table. `sbitsOk` says that every should-be cell of the word holds its should-be value
(30_encoding.md R42, R46, R49). -/
inductive Instr where
  /-- `MRS_A1_AS`, `MRS{<c>}{<q>} <Rd>, <spec_reg>` in A32 (40_mrs.md R60). -/
  | mrsA1 (cond : BitVec 4) (r : SpecReg) (rd : BitVec 4) (sbitsOk : Bool)
  /-- `MRS_T1_AS`, `MRS{<c>}{<q>} <Rd>, <spec_reg>` in T32 (40_mrs.md R61). -/
  | mrsT1 (r : SpecReg) (rd : BitVec 4) (sbitsOk : Bool)
deriving DecidableEq, Repr

/-- The instruction set an instruction belongs to (30_encoding.md R40). -/
def Instr.set : Instr → InstrSet
  | .mrsA1 _ _ _ _ => .a32
  | .mrsT1 _ _ _ => .t32

/-- The decode output `sbits_ok` (30_encoding.md R42, R46). -/
def Instr.sbitsOk : Instr → Bool
  | .mrsA1 _ _ _ ok => ok
  | .mrsT1 _ _ ok => ok

/-- The field `R` as a special register (30_encoding.md R43, R47). -/
def Instr.specReg : Instr → SpecReg
  | .mrsA1 _ r _ _ => r
  | .mrsT1 r _ _ => r

/-- The field `Rd` (30_encoding.md R43, R47). -/
def Instr.rd : Instr → BitVec 4
  | .mrsA1 _ _ rd _ => rd
  | .mrsT1 _ rd _ => rd

end Sys2Proof
end

