-- ==== Sys2Proof/WellFormed.lean ====
section
/-! DEFINITION. Which terms of `Instr` some word spells. -/

namespace Sys2Proof

/-- The A1 diagram's constraint `cond != 1111` (30_encoding.md R41, R51 (a)): a term with `cond = 1111` is no
instruction. `Rd = 1111` and wrong should-be bits ARE this instruction (R51 (c), (d)) and are well formed. -/
def Instr.wellFormed : Instr → Bool
  | .mrsA1 cond _ _ _ => cond != 0b1111#4
  | .mrsT1 _ _ _ => true

end Sys2Proof
end

