-- ==== Sys2Proof/Decode.lean ====
section
/-! DEFINITION. From bytes to an instruction or a rejection by name, and back (spec/30_encoding.md). -/

namespace Sys2Proof

/-- Why bytes spell no instruction of this spec. -/
inductive DecodeError where
  /-- `NotInScope` (30_encoding.md R40, R51): the 32-bit unit `w` of instruction set `set` is no `MRS`. -/
  | notInScope (set : InstrSet) (w : Word)
  /-- Fewer than the four bytes both encodings have (R40). -/
  | tooShort (n : Nat)
deriving DecidableEq, Repr

/-- A field whose lowest bit stands at bit `lo` of a word, the other bits zero (00_scope.md R6). -/
def placeAt {w : Nat} (lo : Nat) (field : BitVec w) : Word := field.setWidth 32 <<< lo

/-- The field `R` read as `<spec_reg>` (R54). -/
def specRegOfBit (b : BitVec 1) : SpecReg :=
  if b = 0#1 then .cpsr else .spsr

/-- The field `R` that spells `<spec_reg>` (R54). -/
def bitOfSpecReg : SpecReg → BitVec 1
  | .cpsr => 0#1
  | .spsr => 1#1

/-- The fixed cells of the A1 diagram (R41): 27:23, 21, 20, 9 and 7:4. -/
def a1FixedCells (w : Word) : Bool :=
  w.extractLsb' 23 5 == 0b00010#5 && w.extractLsb' 21 1 == 0#1 && w.extractLsb' 20 1 == 0#1 &&
    w.extractLsb' 9 1 == 0#1 && w.extractLsb' 4 4 == 0b0000#4

/-- The should-be cells of the A1 diagram (R41, R49): 19:16 ones; 11, 10, 8 and 3:0 zeros. -/
def a1ShouldBeCells (w : Word) : Bool :=
  w.extractLsb' 16 4 == 0b1111#4 && w.extractLsb' 11 1 == 0#1 && w.extractLsb' 10 1 == 0#1 &&
    w.extractLsb' 8 1 == 0#1 && w.extractLsb' 0 4 == 0b0000#4

/-- Decoding an A32 unit (R42, R43, R51): the fixed cells and `cond != 1111` make it `MRS_A1`. -/
def decodeA32 (w : Word) : Option Instr :=
  if a1FixedCells w && w.extractLsb' 28 4 != 0b1111#4 then
    some (.mrsA1 (w.extractLsb' 28 4) (specRegOfBit (w.extractLsb' 22 1)) (w.extractLsb' 12 4) (a1ShouldBeCells w))
  else none

/-- Whether a T32 first halfword begins a 32-bit instruction (R50, decision D26). -/
def t32FirstHalfIsWide (hw1 : Half) : Bool :=
  hw1.extractLsb' 11 5 == 0b11101#5 || hw1.extractLsb' 11 5 == 0b11110#5 || hw1.extractLsb' 11 5 == 0b11111#5

/-- The fixed cells of the T1 diagram (R45): 31:21, 15:14, 12 and 5. -/
def t1FixedCells (w : Word) : Bool :=
  w.extractLsb' 21 11 == 0b11110011111#11 && w.extractLsb' 14 2 == 0b10#2 && w.extractLsb' 12 1 == 0#1 &&
    w.extractLsb' 5 1 == 0#1

/-- The should-be cells of the T1 diagram (R45, R49): 19:16 ones; 13, 7, 6 and 4:0 zeros. -/
def t1ShouldBeCells (w : Word) : Bool :=
  w.extractLsb' 16 4 == 0b1111#4 && w.extractLsb' 13 1 == 0#1 && w.extractLsb' 6 2 == 0b00#2 &&
    w.extractLsb' 0 5 == 0b00000#5

/-- Decoding a T32 unit `hw1 : hw2` (R46, R47, R51): first the length rule (R50), then the fixed cells. -/
def decodeT32 (w : Word) : Option Instr :=
  if t32FirstHalfIsWide (w.extractLsb' 16 16) && t1FixedCells w then
    some (.mrsT1 (specRegOfBit (w.extractLsb' 20 1)) (w.extractLsb' 8 4) (t1ShouldBeCells w))
  else none

/-- The decoder of R40 on a unit delivered by fetch; `none` is `NotInScope`. -/
def decodeWord : InstrSet → Word → Option Instr
  | .a32, w => decodeA32 w
  | .t32, w => decodeT32 w

/-- Instruction fetch's byte order (20_memory.md R32, decision D6): an A32 unit is one little-endian word; a T32 unit is
`hw1 : hw2`, `hw1` at the lower address, each little-endian. `b0` stands at the lowest address. -/
def unitOfBytes (set : InstrSet) (b0 b1 b2 b3 : Byte) : Word :=
  match set with
  | .a32 => placeAt 24 b3 ||| placeAt 16 b2 ||| placeAt 8 b1 ||| placeAt 0 b0
  | .t32 => placeAt 24 b1 ||| placeAt 16 b0 ||| placeAt 8 b3 ||| placeAt 0 b2

/-- The four bytes of a unit as they stand in memory, lowest address first (R32). -/
def bytesOfUnit (set : InstrSet) (w : Word) : List Byte :=
  match set with
  | .a32 => [w.extractLsb' 0 8, w.extractLsb' 8 8, w.extractLsb' 16 8, w.extractLsb' 24 8]
  | .t32 => [w.extractLsb' 16 8, w.extractLsb' 24 8, w.extractLsb' 0 8, w.extractLsb' 8 8]

/-- The decoder on bytes, total: the instruction and the bytes after it, or why there is none. -/
def decode (set : InstrSet) : List Byte → Except DecodeError (Instr × List Byte)
  | b0 :: b1 :: b2 :: b3 :: rest =>
    match decodeWord set (unitOfBytes set b0 b1 b2 b3) with
    | some i => .ok (i, rest)
    | none => .error (.notInScope set (unitOfBytes set b0 b1 b2 b3))
  | bs => .error (.tooShort bs.length)

/-- The unit that spells an instruction, field by field from the diagrams (R41, R45); the cells not
named hold 0. For `sbitsOk = false`, where many
words spell the same term, it clears the should-be-one cells 19:16 (log 25). -/
def encode : Instr → Word
  | .mrsA1 cond r rd ok =>
    placeAt 28 cond ||| placeAt 23 0b00010#5 ||| placeAt 22 (bitOfSpecReg r) |||
      placeAt 16 (if ok then 0b1111#4 else 0b0000#4) ||| placeAt 12 rd
  | .mrsT1 r rd ok =>
    placeAt 21 0b11110011111#11 ||| placeAt 20 (bitOfSpecReg r) |||
      placeAt 16 (if ok then 0b1111#4 else 0b0000#4) ||| placeAt 14 0b10#2 ||| placeAt 8 rd

/-- The instruction set whose table row a 32-bit number belongs to: a T1 word has bits 31:28 = 1111 (R45), which the A1
diagram excludes (R41), so the two rows share no word (log 24). -/
def tableSet (w : Word) : InstrSet :=
  if w.extractLsb' 28 4 = 0b1111#4 then .t32 else .a32

/-- What the decoder reads from an instruction whose bits are `w`, numbered as spec/opcode_table.json numbers them (A1:
the word; T1: `hw1` in bits 31:16), laid out in memory's byte order. -/
def decodeTableWord (nbits w : Nat) : Option Instr :=
  let u : Word := BitVec.ofNat 32 (w % 2 ^ nbits)
  match decode (tableSet u) (bytesOfUnit (tableSet u) u) with
  | .ok (i, _) => some i
  | .error _ => none

end Sys2Proof
end

