-- ==== Sys2Proof/Machine/State.lean ====
section
/-! DEFINITION. The state of the machine as plain data (spec/10_state.md, spec/20_memory.md R30), what stops a step, and
the state a run starts from when nothing is said of its launch. -/

namespace Sys2Proof.Machine

/-- The modes `PSTATE.M` may hold: `VALID_MODES` at its default (10_state.md R15, decision D25). No other value can be
written down, so R23 (i) holds of every `State` (log 10). -/
inductive Mode where
  | user
  | fiq
  | irq
  | supervisor
  | monitor
  | abort
  | hyp
  | undefined
  | system
deriving DecidableEq, Repr

/-- `PSTATE` (10_state.md R14, R19). `EL` is no field: it is a function of `m` (R16). `J` is the constant 0 and `SS` has no
bit, so neither is held (R26, log 26). -/
structure PState where
  n : Bool
  z : Bool
  c : Bool
  v : Bool
  q : Bool
  ge : BitVec 4
  e : Bool
  a : Bool
  i : Bool
  f : Bool
  m : Mode
  t : Bool
  it : BitVec 8
  il : Bool
  p23 : Bool
  p22 : Bool
  p21 : Bool
deriving DecidableEq, Repr

/-- The saved program status registers, one for each mode of `MODES_WITH_SPSR` (10_state.md R22). -/
structure SpsrFile where
  fiq : Word
  irq : Word
  svc : Word
  mon : Word
  abt : Word
  hyp : Word
  und : Word
deriving DecidableEq, Repr

/-- Instruction memory `PROGRAM`, a partial function from addresses to bytes (20_memory.md R30): a cell for each address
that holds a byte, the addresses strictly rising. An unlisted address holds no byte (log 14). -/
abbrev Memory := List Host.Cell

/-- The canonical form of `Memory`: addresses below 2^32 (R30), strictly rising. An unlisted address reads as no byte, so
no entry is superfluous. -/
def Memory.wf : Memory → Bool
  | [] => true
  | (a, _) :: m => decide (a < 4294967296) && m.all (fun cell => decide (a < cell.1)) && Memory.wf m

/-- All the state the spec gives the machine (spec/10_state.md, INVENTORY.md's State). -/
structure State where
  /-- `x[0]` to `x[14]` (R11), as seen from the current mode (R12). -/
  x : Vector Word 15
  /-- The address of the instruction being executed (R13). -/
  pc : Word
  pstate : PState
  spsr : SpsrFile
  /-- `PROGRAM`, which no step writes (R30, R38). -/
  mem : Memory
  /-- The model's own: how many `UNKNOWN32` draws the run has taken (R25, log 4). -/
  draws : Nat
deriving DecidableEq, Repr

/-- The reasons of the outcome `Unpredictable(reason)`, a closed list (60_exceptions.md R82). -/
inductive UnpredictableReason where
  /-- `UInt(Rd) == 15` (R44, R48). -/
  | rd15
  /-- A should-be cell holds the other value (R49). -/
  | shouldBeBits
deriving DecidableEq, Repr

/-- What ends a run from inside (60_exceptions.md R80). -/
inductive Fault where
  /-- The outcome `Undefined` (R81), raised by an `MRS` of the SPSR in User or System mode when `CU_MRS_SPSR_USR_SYS` is
  UNDEF (R66). Safe: the spec makes it terminal and describes no exception entry (log 17). -/
  | undefined
  /-- The outcome `Unpredictable(reason)` (R82), raised by the decode tests of either `MRS`. Safe: no claim can be proved of
  a run that reaches it (log 18, log 19). -/
  | unpredictable (reason : UnpredictableReason)
  /-- Stuck (R34, R83), raised by a fetch from an address where `PROGRAM` holds no byte. Safe (log 14). -/
  | programUndefined
deriving DecidableEq, Repr

/-- What the model gives no meaning to (60_exceptions.md R83). -/
inductive Refusal where
  /-- An instruction without a meaning yet; raised by no arm of `exec`. Safe. -/
  | notModelled (mnemonic : String)
  /-- `NotInScope` (R83, R51), raised by `step` on a fetched word that is no `MRS`. Safe (log 20). -/
  | notInScope (why : DecodeError)
  /-- A T1 `MRS` with `PSTATE.IT` not zero while `ADMIT_IT_BLOCK` is false (R61, R83), raised by that meaning. Safe (log 6). -/
  | itBlockNotAdmitted
  /-- `pc` not aligned as R33 requires, raised by `step` before the fetch. Safe (log 16). -/
  | misalignedPc
  /-- `PSTATE.IT` not zero in A32 state, against R23 (iii), raised by `step` before the fetch. Safe (log 16). -/
  | itInA32State
deriving DecidableEq, Repr

/-- A step's outcome in this model's own types. -/
abbrev Result := Host.Outcome State Fault Refusal

/-- `PSTATE` at reset, WHICH THE SPEC DOES NOT GIVE (R26, R95): Supervisor mode with `A`, `I`, `F` set, the rest zero, as
the family has it (log 2), the flags zero (log 3). -/
def PState.reset : PState where
  n := false
  z := false
  c := false
  v := false
  q := false
  ge := 0#4
  e := false
  a := true
  i := true
  f := true
  m := .supervisor
  t := false
  it := 0#8
  il := false
  p23 := false
  p22 := false
  p21 := false

/-- The saved program status registers at reset, which the spec does not give (R26, log 3). -/
def SpsrFile.reset : SpsrFile where
  fiq := 0#32
  irq := 0#32
  svc := 0#32
  mon := 0#32
  abt := 0#32
  hyp := 0#32
  und := 0#32

/-- The machine right after reset. The spec has no reset (R26, R95): every value is the model's (logs 1, 2, 3, 4, 14). -/
def State.reset : State where
  x := Vector.replicate 15 0#32
  pc := 0#32
  pstate := PState.reset
  spsr := SpsrFile.reset
  mem := []
  draws := 0

end Sys2Proof.Machine
end

