-- ==== Sys2Proof/Machine/Operands.lean ====
section
/-! DEFINITION. The operand forms of `MRS`: the destination register, the special register of a mode, and where the
condition comes from (spec/30_encoding.md R52, spec/10_state.md R15, R16, R18, R22). -/

namespace Sys2Proof.Machine

/-- `d = UInt(Rd)` as one of the registers `x[0]` to `x[14]`; none for `d == 15`, which `MRS` may not name (R11, R44, R48). -/
def destReg (rd : BitVec 4) : Option (Fin 15) :=
  if h : rd.toNat < 15 then some ⟨rd.toNat, h⟩ else none

/-- The encoding of a mode in `PSTATE.M` (10_state.md R15). -/
def modeBits : Mode → BitVec 5
  | .user => 0b10000#5
  | .fiq => 0b10001#5
  | .irq => 0b10010#5
  | .supervisor => 0b10011#5
  | .monitor => 0b10110#5
  | .abort => 0b10111#5
  | .hyp => 0b11010#5
  | .undefined => 0b11011#5
  | .system => 0b11111#5

/-- The mode a value of `PSTATE.M` names; none outside `VALID_MODES` (R15, R23 (i)). -/
def modeOfBits (b : BitVec 5) : Option Mode :=
  [Mode.user, .fiq, .irq, .supervisor, .monitor, .abort, .hyp, .undefined, .system].find? (fun m => modeBits m == b)

/-- The constant `EL0` (R16). -/
def el0 : BitVec 2 := 0b00#2

/-- `EL_OF_MODE` (R16, decision D11): `EL0` for User mode alone. The other values are read by nothing (log 11). -/
def elOfMode : Mode → BitVec 2
  | .user => el0
  | .hyp => 0b10#2
  | .monitor => 0b11#2
  | .fiq | .irq | .supervisor | .abort | .undefined | .system => 0b01#2

/-- `SPSR(m)` (R22, decision D10): the SPSR of a mode of `MODES_WITH_SPSR`; none for User and System mode. -/
def spsrOfMode (f : SpsrFile) : Mode → Option Word
  | .user => none
  | .fiq => some f.fiq
  | .irq => some f.irq
  | .supervisor => some f.svc
  | .monitor => some f.mon
  | .abort => some f.abt
  | .hyp => some f.hyp
  | .undefined => some f.und
  | .system => none

/-- The decoder `PSTATE.T` selects (R18, 30_encoding.md R40). -/
def instrSetOf (t : Bool) : InstrSet :=
  if t then .t32 else .a32

/-- The condition of a T32 instruction (R18, 40_mrs.md R63): `IT[7:4]` while `IT[3:0]` is not 0000, else 1110. -/
def itCond (it : BitVec 8) : BitVec 4 :=
  if it.extractLsb' 0 4 = 0b0000#4 then 0b1110#4 else it.extractLsb' 4 4

end Sys2Proof.Machine
end

