-- ==== Sys2Proof/Machine/Flags.lean ====
section
/-! DEFINITION. What is computed from `PSTATE`: whether a condition passes, the IT advance, and the 32-bit status value
(spec/40_mrs.md R63, spec/10_state.md R18 to R20). `MRS` writes no flag (R17). -/

namespace Sys2Proof.Machine

/-- The base test of a condition (40_mrs.md R63), selected by `cond[3:1]`. -/
def conditionBase (cond : BitVec 4) (n z c v : Bool) : Bool :=
  match (cond.extractLsb' 1 3).toNat with
  | 0 => z
  | 1 => c
  | 2 => n
  | 3 => v
  | 4 => c && !z
  | 5 => n == v
  | 6 => n == v && !z
  | _ => true

/-- `ConditionPassed` of a condition and the flags (R63): the base test, negated when `cond[0]` is 1 and `cond` is not 1111. -/
def conditionHolds (cond : BitVec 4) (n z c v : Bool) : Bool :=
  if cond.extractLsb' 0 1 = 0#1 ∨ cond = 0b1111#4 then conditionBase cond n z c v else !conditionBase cond n z c v

/-- `ConditionPassed` on the flags of `PSTATE` as the step begins (R63). -/
def conditionPassed (cond : BitVec 4) (p : PState) : Bool :=
  conditionHolds cond p.n p.z p.c p.v

/-- `ITAdvance` (10_state.md R18): `IT <- 0` when `IT[2:0] == 000`, else `IT[4:0] <- IT[3:0] : 0`. -/
def itAdvance (it : BitVec 8) : BitVec 8 :=
  if it.extractLsb' 0 3 = 0b000#3 then 0#8 else it.extractLsb' 5 3 ++ it.extractLsb' 0 4 ++ 0#1

/-- `PSR32`, the value of `GetPSRFromPSTATE(AArch32_NonDebugState, 32)`, at its default layout (10_state.md R19, decision
D9, log 7), field by field. Bits 23:21 are three uninterpreted bits of `PSTATE` (log 8), bit 24 (`J`) is 0. -/
def psr32 (p : PState) : Word :=
  placeAt 31 (BitVec.ofBool p.n) ||| placeAt 30 (BitVec.ofBool p.z) ||| placeAt 29 (BitVec.ofBool p.c) |||
    placeAt 28 (BitVec.ofBool p.v) ||| placeAt 27 (BitVec.ofBool p.q) ||| placeAt 25 (p.it.extractLsb' 0 2) |||
    placeAt 23 (BitVec.ofBool p.p23) ||| placeAt 22 (BitVec.ofBool p.p22) ||| placeAt 21 (BitVec.ofBool p.p21) |||
    placeAt 20 (BitVec.ofBool p.il) ||| placeAt 16 p.ge ||| placeAt 10 (p.it.extractLsb' 2 6) |||
    placeAt 9 (BitVec.ofBool p.e) ||| placeAt 8 (BitVec.ofBool p.a) ||| placeAt 7 (BitVec.ofBool p.i) |||
    placeAt 6 (BitVec.ofBool p.f) ||| placeAt 5 (BitVec.ofBool p.t) ||| placeAt 0 (modeBits p.m)

/-- `CPSR_MASK`, the literal of the operation pseudocode (R20, 90_conflicts.md C2). -/
def cpsrMask : Word := 0xF8EF03DF#32

/-- `UNKNOWN_BITS`, the bits of a `CPSR` read that are drawn at EL0: 22, 9:6 and 4:0 (R25, 90_conflicts.md C1). -/
def unknownBits : Word := 0x004003DF#32

end Sys2Proof.Machine
end

