-- ==== Sys2Proof/Machine/Ops.lean ====
section
/-! DEFINITION. The named operations over memory, registers and outcomes that the meanings and the step are made of. -/

namespace Sys2Proof.Machine

/-- The parameters of this machine (00_scope.md R5): `CU_MRS_SPSR_USR_SYS` is left open (log 5); `ADMIT_IT_BLOCK` is set
to true, so that a T1 `MRS` inside an IT block runs by the rules the spec gives it (log 6). -/
def params : Config.Params :=
  { cuMrsSpsrUsrSys := Config.cuMrsSpsrUsrSys, admitItBlock := true }

/-! ### Instruction memory -/

/-- The byte at an address, if `PROGRAM` defines one (20_memory.md R30). -/
def Memory.read : Memory → Nat → Option Byte
  | [], _ => none
  | (a', b) :: m, a => if a = a' then some b else Memory.read m a

/-- Memory with one byte placed at an address. No step does this: it builds the launch memory (R30, R38). -/
def Memory.write : Memory → Nat → Byte → Memory
  | [], a, b => [(a, b)]
  | (a', b') :: m, a, b =>
    if a < a' then (a, b) :: (a', b') :: m
    else if a = a' then (a, b) :: m
    else (a', b') :: Memory.write m a b

/-- The `n` bytes at `a`, `a + 1`, ..., lowest address first, addresses modulo 2^32 (R32, R39); none where `PROGRAM` does
not define all of them. -/
def Memory.readBytes (m : Memory) : Nat → Word → Option (List Byte)
  | 0, _ => some []
  | n + 1, a =>
    match Memory.read m a.toNat, Memory.readBytes m n (a + 1#32) with
    | some b, some bs => some (b :: bs)
    | _, _ => none

/-- Memory with bytes placed at `a`, `a + 1`, ..., addresses modulo 2^32. -/
def Memory.writeBytes (m : Memory) : Word → List Byte → Memory
  | _, [] => m
  | a, b :: bs => Memory.writeBytes (Memory.write m a.toNat b) (a + 1#32) bs

/-! ### Registers and `PSTATE` -/

/-- `x[d]` (00_scope.md R7). -/
def State.readReg (s : State) (d : Fin 15) : Word := s.x[d]

/-- `x[d] <- v` (R7, 10_state.md R11). -/
def State.writeReg (s : State) (d : Fin 15) (v : Word) : State :=
  { s with x := s.x.set d.val v d.isLt }

/-- `pc <- (pc + 4) mod 2^32` (R13, decision D3, log 12). -/
def State.advancePc (s : State) : State :=
  { s with pc := s.pc + 4#32 }

/-- `if ADMIT_IT_BLOCK then ITAdvance()` (40_mrs.md R61). -/
def State.advanceIt (s : State) (admitted : Bool) : State :=
  if admitted then { s with pstate := { s.pstate with it := itAdvance s.pstate.it } } else s

/-- The instruction set the state selects (10_state.md R18). -/
def State.instrSet (s : State) : InstrSet := instrSetOf s.pstate.t

/-- `PSTATE.EL` (R16). -/
def State.el (s : State) : BitVec 2 := elOfMode s.pstate.m

/-- `SPSR[]`, the SPSR of the current mode (R22). -/
def State.currentSpsr (s : State) : Option Word := spsrOfMode s.spsr s.pstate.m

/-- The bits this step's `UNKNOWN32` draws (R25). -/
def State.unknown (s : State) : Word := Config.unknown32 s.draws

/-- The draw is taken: the next one is another (R25). -/
def State.noteDraw (s : State) : State :=
  { s with draws := s.draws + 1 }

/-! ### Outcomes -/

/-- `raise Undefined` (60_exceptions.md R81): the step ends with nothing changed. This IS the taking of an exception in
this spec: it describes no entry, no handler and no return (R86, R87, log 17). -/
def raiseUndefined : Result := .fault .undefined

/-- `raise Unpredictable(reason)` (R82): the step ends with nothing changed. -/
def raiseUnpredictable (reason : UnpredictableReason) : Result := .fault (.unpredictable reason)

/-- What follows a part of a step that may have raised: `f` on the next state, the same stop otherwise (40_mrs.md R67 (7)). -/
def onNext (f : State → State) : Result → Result
  | .next s => .next (f s)
  | .fault r => .fault r
  | .refused r => .refused r

/-! ### Around an instruction -/

/-- The alignment of `pc` (20_memory.md R33): 4 in A32 state, 2 in T32 state. -/
def State.pcAligned (s : State) : Bool :=
  if s.pstate.t then s.pc.extractLsb' 0 1 == 0#1 else s.pc.extractLsb' 0 2 == 0b00#2

/-- Why no step is defined from a state (60_exceptions.md R83): an invariant of 10_state.md R23 is broken. R23 (i) and (ii)
hold of every `State`. -/
def State.outsideSpec (s : State) : Option Refusal :=
  if s.pcAligned = false then some .misalignedPc
  else if s.pstate.t = false ∧ s.pstate.it ≠ 0#8 then some .itInA32State
  else none

/-- Fetch (20_memory.md R39): the four bytes at `pc`, where `PROGRAM` defines them all. -/
def State.fetch (s : State) : Option (List Byte) := s.mem.readBytes 4 s.pc

/-- The launch state of 70_reset_and_hazards.md R95: what `LAUNCH` supplies; the registers, which it does not, hold the
value at reset (log 1). -/
def State.launch (pc : Word) (pstate : PState) (spsr : SpsrFile) (program : Memory) : State :=
  { State.reset with pc := pc, pstate := pstate, spsr := spsr, mem := program }

/-- `pc` with the low bits cleared that an instruction set's alignment asks to be zero (R33). -/
def alignPc (set : InstrSet) (pc : Word) : Word :=
  match set with
  | .a32 => pc &&& 0xFFFFFFFC#32
  | .t32 => pc &&& 0xFFFFFFFE#32

/-- The state in which the unit `u` of instruction set `set` stands where the next fetch reads: the decoder selected, `IT`
zero in A32 state (R23 (iii)), `pc` aligned (R33), the bytes in memory order (R32). -/
def State.placeUnit (s : State) (set : InstrSet) (u : Word) : State :=
  { s with
    pc := alignPc set s.pc
    pstate := { s.pstate with
      t := set = .t32
      it := if set = .t32 then s.pstate.it else 0#8 }
    mem := s.mem.writeBytes (alignPc set s.pc) (bytesOfUnit set u) }

end Sys2Proof.Machine
end

