-- ==== Sys2Proof/Machine/Mrs.lean ====
section
/-! DEFINITION. The instruction family `MRS` (spec/40_mrs.md): the operation both encodings share, and the meaning of each
encoding, written over the parameters of 00_scope.md R5. -/

namespace Sys2Proof.Machine

/-- `CU_SPSR_UsrSys()` (R66): an `MRS` of the SPSR in User or System mode is UNDEFINED or a no-op, by the parameter. -/
def cuSpsrUsrSys (cu : Config.CuMrsSpsr) (s : State) : Result :=
  match cu with
  | .undef => raiseUndefined
  | .nop => .next s

/-- The `R = 0` branch of `Operation` (R62, R65): the masked status value, with the bits of `unknownBits` drawn at EL0. -/
def readCpsr (d : Fin 15) (s : State) : State :=
  let psr := psr32 s.pstate &&& cpsrMask
  if s.el = el0 then
    s.noteDraw.writeReg d ((psr &&& 0xFFBFFC20#32) ||| (s.unknown &&& unknownBits))
  else s.writeReg d psr

/-- `Operation(d, read_spsr)` (R62). -/
def mrsOperation (cu : Config.CuMrsSpsr) (d : Fin 15) (r : SpecReg) (s : State) : Result :=
  match r with
  | .cpsr => .next (readCpsr d s)
  | .spsr =>
    match s.currentSpsr with
    | none => cuSpsrUsrSys cu s
    | some v => .next (s.writeReg d v)

/-- The decode tests of both encodings (R60, R61, R85): should-be bits first, then `d == 15`, before the condition (D24). -/
def withDest (sbitsOk : Bool) (rd : BitVec 4) (k : Fin 15 → Result) : Result :=
  if sbitsOk then
    match destReg rd with
    | some d => k d
    | none => raiseUnpredictable .rd15
  else raiseUnpredictable .shouldBeBits

/-- `if ConditionPassed() then Operation(d, read_spsr)` (R60, R61, R62). -/
def mrsIfPassed (cu : Config.CuMrsSpsr) (cond : BitVec 4) (d : Fin 15) (r : SpecReg) (s : State) : Result :=
  if conditionPassed cond s.pstate then mrsOperation cu d r s else .next s

/-- `MRS` (A1) under the parameters `P` (R60). -/
def mrsA1 (P : Config.Params) (cond : BitVec 4) (r : SpecReg) (rd : BitVec 4) (sbitsOk : Bool) (s : State) : Result :=
  withDest sbitsOk rd fun d =>
    onNext State.advancePc (mrsIfPassed P.cuMrsSpsrUsrSys cond d r s)

/-- `MRS` (T1) under the parameters `P` (R61): the IT admission test stands between the decode tests and the condition. -/
def mrsT1 (P : Config.Params) (r : SpecReg) (rd : BitVec 4) (sbitsOk : Bool) (s : State) : Result :=
  withDest sbitsOk rd fun d =>
    if s.pstate.it ≠ 0#8 ∧ P.admitItBlock = false then .refused .itBlockNotAdmitted
    else
      onNext (fun t => t.advancePc.advanceIt P.admitItBlock)
        (mrsIfPassed P.cuMrsSpsrUsrSys (itCond s.pstate.it) d r s)

/-- The meaning of `MRS` (A1), opcode-table row `MRS_A1_AS` (R60). -/
def execMrsA1 (cond : BitVec 4) (r : SpecReg) (rd : BitVec 4) (sbitsOk : Bool) (s : State) : Result :=
  mrsA1 params cond r rd sbitsOk s

/-- The meaning of `MRS` (T1), opcode-table row `MRS_T1_AS` (R61). -/
def execMrsT1 (r : SpecReg) (rd : BitVec 4) (sbitsOk : Bool) (s : State) : Result :=
  mrsT1 params r rd sbitsOk s

end Sys2Proof.Machine
end

