-- ==== Sys2Proof/Machine/Dispatch.lean ====
section
/-! DEFINITION. One arm per instruction. -/

namespace Sys2Proof.Machine

def exec (i : Instr) (s : State) : Host.Outcome State Fault Refusal :=
  match i with
  | .mrsA1 cond r rd sbitsOk => Sys2Proof.Machine.execMrsA1 cond r rd sbitsOk s
  | .mrsT1 r rd sbitsOk => Sys2Proof.Machine.execMrsT1 r rd sbitsOk s

end Sys2Proof.Machine
end

