-- ==== Sys2Proof/Machine/Step.lean ====
section
/-! DEFINITION. One step of the machine (spec/40_mrs.md R67). -/

namespace Sys2Proof.Machine

/-- A state that breaks R23 is refused (R83); a fetch where `PROGRAM` is undefined is stuck (R34); bytes that spell no
`MRS` are refused (R51); otherwise the decoded instruction runs, and it moves `pc` itself (R60, R61). -/
def step (s : State) : Host.Outcome State Fault Refusal :=
  match s.outsideSpec with
  | some r => .refused r
  | none =>
    match s.fetch with
    | none => .fault .programUndefined
    | some bytes =>
      match decode s.instrSet bytes with
      | .ok (i, _) => exec i s
      | .error why => .refused (.notInScope why)

/-- `s` with the instruction whose bits are `w`, numbered as in spec/opcode_table.json, stored where `step` fetches next.
It stands for the load of a program from outside the machine (70_reset_and_hazards.md R95, log 24). -/
def State.withFetchWord (s : State) (nbits w : Nat) : State :=
  s.placeUnit (tableSet (BitVec.ofNat 32 (w % 2 ^ nbits))) (BitVec.ofNat 32 (w % 2 ^ nbits))

end Sys2Proof.Machine
end

