-- ==== Sys2Proof/Machine/Assembler.lean ====
section
/-! DEFINITION. The assembler template `MRS{<c>}{<q>} <Rd>, <spec_reg>` of both encodings (spec/30_encoding.md R53, R54).
No step reads it: it says which instruction a line of assembly stands for. `<c>`, `<q>` and the names of R13 to R15 are the
spec's general knowledge (GK12, log 27). -/

namespace Sys2Proof.Machine

/-- The condition suffixes `<c>` (R53), `HS` and `LO` being synonyms of `CS` and `CC`. -/
inductive AsmCond where
  | eq | ne | cs | hs | cc | lo | mi | pl | vs | vc | hi | ls | ge | lt | gt | le | al
deriving DecidableEq, Repr

/-- The width qualifiers `<q>` (R53): `.N` and `.W`. -/
inductive AsmWidth where
  | narrow
  | wide
deriving DecidableEq, Repr

/-- A register name `<Rd>` (R53): `R0` to `R15`, or `SP`, `LR`, `PC`. -/
inductive AsmReg where
  | num (n : BitVec 4)
  | sp
  | lr
  | pc
deriving DecidableEq, Repr

/-- The three spellings of `<spec_reg>` (R54). -/
inductive AsmSpecReg where
  | apsr
  | cpsr
  | spsr
deriving DecidableEq, Repr

/-- One line of assembly that fills the template (R53). -/
structure AsmMrs where
  cond : Option AsmCond
  width : Option AsmWidth
  rd : AsmReg
  specReg : AsmSpecReg
deriving DecidableEq, Repr

/-- The `cond` field of a suffix (40_mrs.md R63's table). -/
def asmCondBits : AsmCond → BitVec 4
  | .eq => 0b0000#4
  | .ne => 0b0001#4
  | .cs | .hs => 0b0010#4
  | .cc | .lo => 0b0011#4
  | .mi => 0b0100#4
  | .pl => 0b0101#4
  | .vs => 0b0110#4
  | .vc => 0b0111#4
  | .hi => 0b1000#4
  | .ls => 0b1001#4
  | .ge => 0b1010#4
  | .lt => 0b1011#4
  | .gt => 0b1100#4
  | .le => 0b1101#4
  | .al => 0b1110#4

/-- The `Rd` field of a register name (R53). -/
def asmRegBits : AsmReg → BitVec 4
  | .num n => n
  | .sp => 13#4
  | .lr => 14#4
  | .pc => 15#4

/-- The value of `R` of a spelling (R54): `APSR` and `CPSR` are one. -/
def asmSpecReg : AsmSpecReg → SpecReg
  | .apsr | .cpsr => .cpsr
  | .spsr => .spsr

/-- The condition of a line, `AL` where no suffix is written (R53). -/
def asmCondOf (a : AsmMrs) : BitVec 4 := asmCondBits (a.cond.getD .al)

/-- The instruction a line stands for in an instruction set (R53): `MRS` has no 16-bit encoding, so `.N` cannot be
satisfied; in A32 the suffix sets `cond`; in T32 it must agree with the enclosing IT block and is not encoded. -/
def assemble (set : InstrSet) (it : BitVec 8) (a : AsmMrs) : Option Instr :=
  if a.width = some .narrow then none
  else
    match set with
    | .a32 => some (.mrsA1 (asmCondOf a) (asmSpecReg a.specReg) (asmRegBits a.rd) true)
    | .t32 =>
      if asmCondOf a = itCond it then some (.mrsT1 (asmSpecReg a.specReg) (asmRegBits a.rd) true) else none

/-! ### The text of a line -/

/-- The text after a token, if it begins with the token. -/
def eatToken : List Char → List Char → Option (List Char)
  | [], cs => some cs
  | _ :: _, [] => none
  | t :: ts, c :: cs => if t = c then eatToken ts cs else none

/-- The first entry of a table whose token the text begins with, and the text after it. -/
def eatEntry {α : Type} (table : List (List Char × α)) (cs : List Char) : Option (α × List Char) :=
  table.findSome? fun entry => (eatToken entry.1 cs).map fun rest => (entry.2, rest)

/-- An optional token: nothing is read where no entry fits. -/
def eatOptional {α : Type} (table : List (List Char × α)) (cs : List Char) : Option α × List Char :=
  match eatEntry table cs with
  | some (v, rest) => (some v, rest)
  | none => (none, cs)

/-- The spellings of `<c>` (R53). -/
def condNames : List (List Char × AsmCond) :=
  [(['E', 'Q'], .eq), (['N', 'E'], .ne), (['C', 'S'], .cs), (['H', 'S'], .hs), (['C', 'C'], .cc), (['L', 'O'], .lo),
    (['M', 'I'], .mi), (['P', 'L'], .pl), (['V', 'S'], .vs), (['V', 'C'], .vc), (['H', 'I'], .hi), (['L', 'S'], .ls),
    (['G', 'E'], .ge), (['L', 'T'], .lt), (['G', 'T'], .gt), (['L', 'E'], .le), (['A', 'L'], .al)]

/-- The spellings of `<q>` (R53). -/
def widthNames : List (List Char × AsmWidth) :=
  [(['.', 'N'], .narrow), (['.', 'W'], .wide)]

/-- The spellings of `<Rd>` (R53), the two-digit numbers first so that the longest fits. -/
def regNames : List (List Char × AsmReg) :=
  [(['R', '1', '0'], .num 10#4), (['R', '1', '1'], .num 11#4), (['R', '1', '2'], .num 12#4), (['R', '1', '3'], .num 13#4),
    (['R', '1', '4'], .num 14#4), (['R', '1', '5'], .num 15#4), (['R', '0'], .num 0#4), (['R', '1'], .num 1#4),
    (['R', '2'], .num 2#4), (['R', '3'], .num 3#4), (['R', '4'], .num 4#4), (['R', '5'], .num 5#4), (['R', '6'], .num 6#4),
    (['R', '7'], .num 7#4), (['R', '8'], .num 8#4), (['R', '9'], .num 9#4), (['S', 'P'], .sp), (['L', 'R'], .lr),
    (['P', 'C'], .pc)]

/-- The spellings of `<spec_reg>` (R54). -/
def specRegNames : List (List Char × AsmSpecReg) :=
  [(['A', 'P', 'S', 'R'], .apsr), (['C', 'P', 'S', 'R'], .cpsr), (['S', 'P', 'S', 'R'], .spsr)]

/-- Reading a line of the template, names in either case (R53): the mnemonic with its suffixes, at least one space, the
destination, a comma, the special register; spaces around the operands are ignored (log 27). -/
def parseMrs (line : List Char) : Option AsmMrs := do
  let cs ← eatToken ['M', 'R', 'S'] (line.map Char.toUpper)
  let (cond, cs) := eatOptional condNames cs
  let (width, cs) := eatOptional widthNames cs
  let cs ← eatToken [' '] cs
  let (rd, cs) ← eatEntry regNames (cs.dropWhile (· = ' '))
  let cs ← eatToken [','] (cs.dropWhile (· = ' '))
  let (specReg, cs) ← eatEntry specRegNames (cs.dropWhile (· = ' '))
  if cs.all (· = ' ') then some { cond := cond, width := width, rd := rd, specReg := specReg } else none

end Sys2Proof.Machine
end

