-- ==== Sys2Proof/Safety.lean ====
section
/-! DEFINITION. The terms claims are stated in: what an instruction reads before it runs, the invariant of a legal state,
what User mode can see, and how a run ends. -/

namespace Sys2Proof.Safety

open Sys2Proof.Machine

/-- The meaning of an instruction under any values of the parameters (00_scope.md R5); `exec` is it under
`Machine.params`. -/
def execWith (P : Config.Params) : Instr → State → Result
  | .mrsA1 cond r rd ok, s => mrsA1 P cond r rd ok s
  | .mrsT1 r rd ok, s => mrsT1 P r rd ok s

/-- The condition of an instruction in a state (40_mrs.md R63): A1's field, T1's from `PSTATE.IT`. -/
def conditionOf : Instr → State → BitVec 4
  | .mrsA1 cond _ _ _, _ => cond
  | .mrsT1 _ _ _, s => itCond s.pstate.it

/-- Whether the condition of an instruction passes in a state (R63). -/
def passes (i : Instr) (s : State) : Bool := conditionPassed (conditionOf i s) s.pstate

/-- `PSTATE.IT` after an instruction that completes (10_state.md R18): advanced after a T1 `MRS`, unchanged after an A1 one. -/
def itAfter : Instr → State → BitVec 8
  | .mrsA1 _ _ _ _, s => s.pstate.it
  | .mrsT1 _ _ _, s => itAdvance s.pstate.it

/-- The IT admission test of a T1 `MRS` (40_mrs.md R61); an A1 one has none. -/
def admitted (P : Config.Params) : Instr → State → Bool
  | .mrsA1 _ _ _ _, _ => true
  | .mrsT1 _ _ _, s => P.admitItBlock || s.pstate.it == 0#8

/-- The state in which an instruction that completes leaves what it does not compute: `pc` moved past it and `PSTATE.IT`
advanced as the instruction set asks (10_state.md R13, R18). -/
def afterInstr (i : Instr) (s : State) : State :=
  { s with pc := s.pc + 4#32, pstate := { s.pstate with it := itAfter i s } }

/-- The invariants of 10_state.md R23 that a `State` can break, (iii) and (iv), with the canonical form of memory. R23 (i)
and (ii) hold of every `State`, `PSTATE.M` being a `Mode` and `PSTATE.EL` a function of it. -/
structure Inv (s : State) : Prop where
  mem_wf : s.mem.wf = true
  it_zero_in_a32 : s.pstate.t = false → s.pstate.it = 0#8
  pc_even : s.pc.extractLsb' 0 1 = 0#1
  pc_word_in_a32 : s.pstate.t = false → s.pc.extractLsb' 0 2 = 0b00#2

/-- The fields of `PSTATE` that a `CPSR` read in User mode shows or that steer a step (40_mrs.md R65 (b), R63, R18):
everything but `E`, `A`, `I`, `F`, `IL` and the unnamed bit 22. -/
def sameUserFields (p q : PState) : Prop :=
  p.n = q.n ∧ p.z = q.z ∧ p.c = q.c ∧ p.v = q.v ∧ p.q = q.q ∧ p.ge = q.ge ∧ p.t = q.t ∧ p.it = q.it ∧
    p.p23 = q.p23 ∧ p.p21 = q.p21

/-- Two User-mode states a program in User mode cannot tell apart, given the same draws (log 4): they may differ in `E`, `A`,
`I`, `F`, `IL`, the unnamed bit 22 and every SPSR. -/
structure SameUserView (s t : State) : Prop where
  user_left : s.pstate.m = .user
  user_right : t.pstate.m = .user
  x_eq : s.x = t.x
  pc_eq : s.pc = t.pc
  fields : sameUserFields s.pstate t.pstate
  mem_eq : s.mem = t.mem
  draws_eq : s.draws = t.draws

/-- Two outcomes alike: next states with the same User view, or the same stop. -/
def SameUserOutcome : Result → Result → Prop
  | .next s, .next t => SameUserView s t
  | .fault r, .fault r' => r = r'
  | .refused r, .refused r' => r = r'
  | _, _ => False

/-- How a run watched for `END_PC` stands after some steps (70_reset_and_hazards.md R97). Only `final` is an end; the
other stops are not final (60_exceptions.md R80). -/
inductive RunEnd where
  | final (s : State)
  | faulted (s : State) (r : Fault)
  | refused (s : State) (r : Refusal)
  | running (s : State)
deriving DecidableEq, Repr

/-- A run of at most `k` steps that ends when, after a completed step, `pc == END_PC` (R97). It says nothing of the
hardware, which does not stop there. -/
def runTo (endPc : Word) : Nat → State → RunEnd
  | 0, s => .running s
  | k + 1, s =>
    match step s with
    | .next t => if t.pc = endPc then .final t else runTo endPc k t
    | .fault r => .faulted s r
    | .refused r => .refused s r

end Sys2Proof.Safety
end

