-- ==== Sys2Proof/Certificates/Slice0/Obligations.lean ====
section
/-! DEFINITION. What is to be proved of the model, each as a proposition over all states. `log <n>` names the entry of the
assumption log a clause rests on. -/

open Sys2Proof Sys2Proof.Machine Sys2Proof.Safety

/-! ### Encoding -/

/-- 30_encoding.md R41, R42: A1 is recognised by `match` and `mask` and the constraint on `cond`, with and without the
should-be bits, and its fields are those of R43. -/
def Obligations.A1RecognisedByMatchAndMask : Prop :=
  ∀ w : Word,
    ((∃ i, decodeWord .a32 w = some i) ↔ w &&& 0x0FB002F0#32 = 0x01000000#32 ∧ w.extractLsb' 28 4 ≠ 0b1111#4) ∧
    ((∃ i, decodeWord .a32 w = some i ∧ i.sbitsOk = true) ↔
      w &&& 0x0FBF0FFF#32 = 0x010F0000#32 ∧ w.extractLsb' 28 4 ≠ 0b1111#4) ∧
    ∀ i, decodeWord .a32 w = some i →
      i = .mrsA1 (w.extractLsb' 28 4) (if w.getLsbD 22 then .spsr else .cpsr) (w.extractLsb' 12 4)
        (w &&& 0x000F0D0F#32 == 0x000F0000#32)

/-- 30_encoding.md R46, R47: T1 is recognised by `match` and `mask`, as one unit and halfword by halfword, with and
without the should-be bits, and its fields are `R = instr[20]`, `Rd = instr[11:8]`. -/
def Obligations.T1RecognisedByMatchAndMask : Prop :=
  ∀ w : Word,
    ((∃ i, decodeWord .t32 w = some i) ↔ w &&& 0xFFE0D020#32 = 0xF3E08000#32) ∧
    ((∃ i, decodeWord .t32 w = some i) ↔
      w.extractLsb' 16 16 &&& 0xFFE0#16 = 0xF3E0#16 ∧ w.extractLsb' 0 16 &&& 0xD020#16 = 0x8000#16) ∧
    ((∃ i, decodeWord .t32 w = some i ∧ i.sbitsOk = true) ↔ w &&& 0xFFEFF0FF#32 = 0xF3EF8000#32) ∧
    ((∃ i, decodeWord .t32 w = some i ∧ i.sbitsOk = true) ↔
      w.extractLsb' 16 16 &&& 0xFFEF#16 = 0xF3EF#16 ∧ w.extractLsb' 0 16 &&& 0xF0FF#16 = 0x8000#16) ∧
    ∀ i, decodeWord .t32 w = some i →
      i = .mrsT1 (if w.getLsbD 20 then .spsr else .cpsr) (w.extractLsb' 8 4) (w &&& 0x000F20DF#32 == 0x000F0000#32)

/-- 30_encoding.md R47, whole, with R54's table for `R`: in every T32 unit that is an `MRS`, `R` is bit 20, which is bit 4 of
the first halfword, and selects `SPSR` when set; `Rd` is bits 11:8, which are bits 11:8 of the second halfword. -/
def Obligations.T1FieldsStandWhereStated : Prop :=
  ∀ (w : Word) (i : Instr), decodeWord .t32 w = some i →
    i.specReg = (if w.getLsbD 20 then .spsr else .cpsr) ∧
    i.specReg = (if (w.extractLsb' 16 16).getLsbD 4 then .spsr else .cpsr) ∧
    i.rd = w.extractLsb' 8 4 ∧ i.rd = (w.extractLsb' 0 16).extractLsb' 8 4

/-- Decoding the bytes of an encoded well-formed instruction, whatever bytes follow, gives it back with every operand
(30_encoding.md R41, R45, 20_memory.md R32), and the other instruction set reads no instruction from its word. For
`sbitsOk = false` the word is the encoder's choice among many (log 25). -/
def Obligations.DecodeOfEncodeIsIdentity : Prop :=
  ∀ (i : Instr) (rest : List Byte), i.wellFormed = true →
    decode i.set (bytesOfUnit i.set (encode i) ++ rest) = .ok (i, rest) ∧
    ∀ set : InstrSet, set ≠ i.set → decodeWord set (encode i) = none

/-- The other direction: what is decoded is well formed, belongs to the set it was decoded in, and is encoded by the very
word wherever that word's should-be bits are right (30_encoding.md R41, R45). -/
def Obligations.EncodeOfDecodeIsTheWord : Prop :=
  ∀ (set : InstrSet) (w : Word) (i : Instr), decodeWord set w = some i →
    i.wellFormed = true ∧ i.set = set ∧ (i.sbitsOk = true → encode i = w)

/-- Words the spec's diagrams spell (95_test_vectors.md V1, V4, V7, V10, V11, V18): read as the instructions they stand
for, and a word next to `MRS` (V45, V46, V48) as none. -/
def Obligations.SampleWordsDecode : Prop :=
  decodeWord .a32 0xE10F0000#32 = some (.mrsA1 0b1110#4 .cpsr 0#4 true) ∧
  decodeWord .a32 0x010F3000#32 = some (.mrsA1 0b0000#4 .cpsr 3#4 true) ∧
  decodeWord .a32 0x114F7000#32 = some (.mrsA1 0b0001#4 .spsr 7#4 true) ∧
  decodeWord .a32 0xE10E0000#32 = some (.mrsA1 0b1110#4 .cpsr 0#4 false) ∧
  decodeWord .t32 0xF3FF8100#32 = some (.mrsT1 .spsr 1#4 true) ∧
  decodeWord .t32 0xF3EF8D00#32 = some (.mrsT1 .cpsr 13#4 true) ∧
  decodeWord .a32 0xF10F0000#32 = none ∧ decodeWord .a32 0xE12FF000#32 = none ∧ decodeWord .t32 0xF3EF8020#32 = none

/-- 30_encoding.md R51: (a) `cond = 1111` and (b) a failed fixed cell are `NotInScope` (log 20); (c) `Rd = 1111` and (d) a
wrong should-be bit are this instruction. That these two fault in every state, a failed condition included, is R82 and R85
as the spec decides them (logs 18, 19); the literal reading would test `d == 15` after the condition (40_mrs.md R64). -/
def Obligations.NeighboursOfMrs : Prop :=
  (∀ w : Word, w.extractLsb' 28 4 = 0b1111#4 → decodeWord .a32 w = none) ∧
  (∀ w : Word, w &&& 0x0FB002F0#32 ≠ 0x01000000#32 → decodeWord .a32 w = none) ∧
  (∀ w : Word, w &&& 0xFFE0D020#32 ≠ 0xF3E08000#32 → decodeWord .t32 w = none) ∧
  (∀ w : Word, w &&& 0x0FBFFFFF#32 = 0x010FF000#32 → w.extractLsb' 28 4 ≠ 0b1111#4 →
    ∃ i, decodeWord .a32 w = some i ∧ ∀ s, exec i s = .fault (.unpredictable .rd15)) ∧
  (∀ w : Word, w &&& 0xFFEFFFFF#32 = 0xF3EF8F00#32 →
    ∃ i, decodeWord .t32 w = some i ∧ ∀ s, exec i s = .fault (.unpredictable .rd15)) ∧
  (∀ w : Word, w &&& 0x0FB002F0#32 = 0x01000000#32 → w &&& 0x000F0D0F#32 ≠ 0x000F0000#32 →
    w.extractLsb' 28 4 ≠ 0b1111#4 →
    ∃ i, decodeWord .a32 w = some i ∧ ∀ s, exec i s = .fault (.unpredictable .shouldBeBits)) ∧
  ∀ w : Word, w &&& 0xFFE0D020#32 = 0xF3E08000#32 → w &&& 0x000F20DF#32 ≠ 0x000F0000#32 →
    ∃ i, decodeWord .t32 w = some i ∧ ∀ s, exec i s = .fault (.unpredictable .shouldBeBits)

/-- 30_encoding.md R53, R54: an assembled line decodes from its encoding to itself, names its register and its condition,
and `APSR` and `CPSR` assemble to the same bits (names of suffixes and registers: log 27). -/
def Obligations.AssembledLineIsWhatIsDecoded : Prop :=
  ∀ (set : InstrSet) (it : BitVec 8) (a : AsmMrs) (i : Instr), assemble set it a = some i →
    decodeWord set (encode i) = some i ∧ i.sbitsOk = true ∧ i.rd = asmRegBits a.rd ∧
    (i.specReg = .spsr ↔ a.specReg = .spsr) ∧
    (∀ s : State, s.pstate.it = it → conditionOf i s = asmCondOf a) ∧
    (a.specReg = .apsr → assemble set it { a with specReg := .cpsr } = some i)

/-- The words of 95_test_vectors.md sections 2.1 and 2.2: `cond<<28 | 0x010F0000 | R<<22 | Rd<<12` and
`0xF3EF8000 | R<<20 | Rd<<8`. -/
def Obligations.EncodingFormulas : Prop :=
  ∀ (cond rd : BitVec 4) (r : SpecReg),
    (encode (.mrsA1 cond r rd true)).toNat =
      cond.toNat * 2 ^ 28 + 0x010F0000 + (if r = .spsr then 2 ^ 22 else 0) + rd.toNat * 2 ^ 12 ∧
    (encode (.mrsT1 r rd true)).toNat =
      0xF3EF8000 + (if r = .spsr then 2 ^ 20 else 0) + rd.toNat * 2 ^ 8

/-! ### Conditions and the status value -/

/-- 40_mrs.md R63: which flags of `PSTATE` each of the sixteen conditions asks for (log 9). -/
def Obligations.ConditionTable : Prop :=
  ∀ p : PState,
    conditionPassed 0b0000#4 p = p.z ∧ conditionPassed 0b0001#4 p = !p.z ∧
    conditionPassed 0b0010#4 p = p.c ∧ conditionPassed 0b0011#4 p = !p.c ∧
    conditionPassed 0b0100#4 p = p.n ∧ conditionPassed 0b0101#4 p = !p.n ∧
    conditionPassed 0b0110#4 p = p.v ∧ conditionPassed 0b0111#4 p = !p.v ∧
    conditionPassed 0b1000#4 p = (p.c && !p.z) ∧ conditionPassed 0b1001#4 p = (!p.c || p.z) ∧
    conditionPassed 0b1010#4 p = (p.n == p.v) ∧ conditionPassed 0b1011#4 p = (p.n != p.v) ∧
    conditionPassed 0b1100#4 p = (p.n == p.v && !p.z) ∧ conditionPassed 0b1101#4 p = (p.n != p.v || p.z) ∧
    conditionPassed 0b1110#4 p = true ∧ conditionPassed 0b1111#4 p = true

/-- 10_state.md R18: the condition of a T32 instruction and the advance of `PSTATE.IT`, bit by bit (log 6). -/
def Obligations.ItConditionAndAdvance : Prop :=
  ∀ it : BitVec 8,
    (it &&& 0x0F#8 = 0#8 → itCond it = 0b1110#4) ∧
    (it &&& 0x0F#8 ≠ 0#8 → itCond it = it.extractLsb' 4 4) ∧
    (it &&& 0x07#8 = 0#8 → itAdvance it = 0#8) ∧
    (it &&& 0x07#8 ≠ 0#8 → itAdvance it &&& 0xE0#8 = it &&& 0xE0#8 ∧ itAdvance it &&& 0x1F#8 = (it <<< 1) &&& 0x1F#8)

/-- 10_state.md R19: where every field of `PSTATE` stands in the status value, all 32 bits of it. The source places only
`E, A, I, F` in 9:6 and `M` in 4:0; the rest of the layout, and the order inside 9:6, is log 7, and the three unnamed bits
23:21 are log 8. -/
def Obligations.StatusValueLayout : Prop :=
  ∀ p : PState,
    (psr32 p).getLsbD 31 = p.n ∧ (psr32 p).getLsbD 30 = p.z ∧ (psr32 p).getLsbD 29 = p.c ∧
    (psr32 p).getLsbD 28 = p.v ∧ (psr32 p).getLsbD 27 = p.q ∧
    (psr32 p).extractLsb' 25 2 = p.it.extractLsb' 0 2 ∧ (psr32 p).getLsbD 24 = false ∧
    (psr32 p).getLsbD 23 = p.p23 ∧ (psr32 p).getLsbD 22 = p.p22 ∧ (psr32 p).getLsbD 21 = p.p21 ∧
    (psr32 p).getLsbD 20 = p.il ∧ (psr32 p).extractLsb' 16 4 = p.ge ∧
    (psr32 p).extractLsb' 10 6 = p.it.extractLsb' 2 6 ∧
    (psr32 p).getLsbD 9 = p.e ∧ (psr32 p).getLsbD 8 = p.a ∧ (psr32 p).getLsbD 7 = p.i ∧ (psr32 p).getLsbD 6 = p.f ∧
    (psr32 p).getLsbD 5 = p.t ∧ (psr32 p).extractLsb' 0 5 = modeBits p.m

/-- 10_state.md R20: the one bits of `CPSR_MASK` and its zero bits, and that the masked value is the status value with
`IT`, `J`, `IL` and `T` cleared and nothing else: bit 24 (`J`) is 0 in both, and bit 21 is kept. -/
def Obligations.CpsrMaskHidesItIlAndT : Prop :=
  cpsrMask = 0b11111000111011110000001111011111#32 ∧ cpsrMask = 0xF8EF03DF#32 ∧ ~~~cpsrMask = 0x0710FC20#32 ∧
  (∀ k, k < 32 → (cpsrMask.getLsbD k = true ↔
    (27 ≤ k ∧ k ≤ 31) ∨ (21 ≤ k ∧ k ≤ 23) ∨ (16 ≤ k ∧ k ≤ 19) ∨ (6 ≤ k ∧ k ≤ 9) ∨ k ≤ 4)) ∧
  (∀ k, k < 32 → (cpsrMask.getLsbD k = false ↔ (24 ≤ k ∧ k ≤ 26) ∨ k = 20 ∨ (10 ≤ k ∧ k ≤ 15) ∨ k = 5)) ∧
  (∀ (d : Fin 15) (s : State), s.el ≠ el0 → (readCpsr d s).readReg d = psr32 s.pstate &&& cpsrMask) ∧
  ∀ p : PState, psr32 p &&& cpsrMask = psr32 { p with it := 0#8, il := false, t := false }

/-- 10_state.md R15, R16, R22: a mode and its encoding determine each other; `EL0` is User mode; the modes without an SPSR
are User and System mode (encodings other than these two: log 10). -/
def Obligations.ModesLevelsAndSpsrs : Prop :=
  (∀ m : Mode, modeOfBits (modeBits m) = some m) ∧
  (∀ (b : BitVec 5) (m : Mode), modeOfBits b = some m → modeBits m = b) ∧
  (∀ m : Mode, elOfMode m = 0b00#2 ↔ modeBits m = 0b10000#5) ∧
  ∀ (f : SpsrFile) (m : Mode), spsrOfMode f m = none ↔ modeBits m = 0b10000#5 ∨ modeBits m = 0b11111#5

/-! ### The operation, under every value of the parameters -/

/-- 40_mrs.md R62, as the pseudocode writes it: the SPSR form by the mode bits; the CPSR form bit by bit, with bits 22, 9:6
and 4:0 replaced by draws exactly when `PSTATE.EL == EL0`; nothing assigned but `R[d]` (and the model's count of draws). -/
def Obligations.OperationAsPseudocode : Prop :=
  unknownBits = 0x004003DF#32 ∧ ~~~unknownBits = 0xFFBFFC20#32 ∧
  ∀ (cu : Config.CuMrsSpsr) (d : Fin 15) (s : State),
    (modeBits s.pstate.m = 0b10000#5 ∨ modeBits s.pstate.m = 0b11111#5 →
      mrsOperation cu d .spsr s = cuSpsrUsrSys cu s) ∧
    (modeBits s.pstate.m ≠ 0b10000#5 → modeBits s.pstate.m ≠ 0b11111#5 →
      ∃ v, spsrOfMode s.spsr s.pstate.m = some v ∧ mrsOperation cu d .spsr s = .next (s.writeReg d v)) ∧
    ∃ t, mrsOperation cu d .cpsr s = .next t ∧
      { t with x := s.x, draws := s.draws } = s ∧ (∀ d' : Fin 15, d' ≠ d → t.readReg d' = s.readReg d') ∧
      ∀ k, k < 32 → (t.readReg d).getLsbD k =
        if elOfMode s.pstate.m = 0b00#2 ∧ (k = 22 ∨ (6 ≤ k ∧ k ≤ 9) ∨ k ≤ 4) then s.unknown.getLsbD k
        else (psr32 s.pstate).getLsbD k && (0b11111000111011110000001111011111#32).getLsbD k

/-- 40_mrs.md R65 under every value of the parameters, for an admitted A1 or T1 past its decode tests with the condition
passed: the `CPSR` form never traps in any mode; outside EL0 its result is fully determined, `M`, `E`, `A`, `I`, `F`
readable; at EL0 the three masks say which bits are kept, zero and drawn (log 4). That `E`, `A`, `I`, `F` are bits 9, 8, 7,
6 in this order is log 7, and the encodings of the modes other than User and System are log 10. -/
def Obligations.CpsrFormResults : Prop :=
  (0xF8AF0000#32 ||| 0x0710FC20#32 ||| 0x004003DF#32 = 0xFFFFFFFF#32 ∧
    0xF8AF0000#32 &&& 0x0710FC20#32 = 0#32 ∧ 0xF8AF0000#32 &&& 0x004003DF#32 = 0#32 ∧
    0x0710FC20#32 &&& 0x004003DF#32 = 0#32) ∧
  ∀ (P : Config.Params) (i : Instr) (s : State) (d : Fin 15), i.specReg = .cpsr → i.sbitsOk = true →
    destReg i.rd = some d → admitted P i s = true → passes i s = true →
    ∃ t, execWith P i s = .next t ∧
      (s.pstate.m ≠ .user →
        t.readReg d = psr32 s.pstate &&& 0xF8EF03DF#32 ∧
        t.readReg d &&& 0x0710FC20#32 = 0#32 ∧
        (t.readReg d).extractLsb' 0 5 = modeBits s.pstate.m ∧
        (t.readReg d).getLsbD 9 = s.pstate.e ∧ (t.readReg d).getLsbD 8 = s.pstate.a ∧
        (t.readReg d).getLsbD 7 = s.pstate.i ∧ (t.readReg d).getLsbD 6 = s.pstate.f) ∧
      (s.pstate.m = .user →
        t.readReg d &&& 0xF8AF0000#32 = psr32 s.pstate &&& 0xF8AF0000#32 ∧
        t.readReg d &&& 0x0710FC20#32 = 0#32 ∧
        t.readReg d &&& 0x004003DF#32 = s.unknown &&& 0x004003DF#32)

/-- 40_mrs.md R66, under either value of `CU_MRS_SPSR_USR_SYS` and in both encodings: with the condition passed, the SPSR
form in User or System mode is UNDEFINED or a no-op that moves `pc` on; with the condition failed the case does not arise;
in every other mode it copies the SPSR whole. Which modes have one is log 10, the move of `pc` log 12, and that `Undefined`
ends the run log 17. -/
def Obligations.SpsrFormUnderEitherConstraint : Prop :=
  ∀ (P : Config.Params) (i : Instr) (s : State) (d : Fin 15),
    i.specReg = .spsr → i.sbitsOk = true → destReg i.rd = some d → admitted P i s = true →
    (passes i s = true → s.pstate.m = .user ∨ s.pstate.m = .system → P.cuMrsSpsrUsrSys = .undef →
      execWith P i s = .fault .undefined) ∧
    (passes i s = true → s.pstate.m = .user ∨ s.pstate.m = .system → P.cuMrsSpsrUsrSys = .nop →
      execWith P i s = .next (afterInstr i s)) ∧
    (passes i s = false → execWith P i s = .next (afterInstr i s)) ∧
    ∀ v, passes i s = true → spsrOfMode s.spsr s.pstate.m = some v →
      execWith P i s = .next ((afterInstr i s).writeReg d v)

/-- 10_state.md R24, under every value of the parameters: a completed `MRS`, A1 or T1, leaves every register but its
destination, every `PSTATE` field but `IT`, every SPSR and every byte of memory as they were; `IT` changes only in a T1 with
`ADMIT_IT_BLOCK` true and `IT` not zero, and then by the advance. `exec` is the meaning under this model's parameters. -/
def Obligations.MrsFrame : Prop :=
  (∀ (i : Instr) (s : State), exec i s = execWith params i s) ∧
  ∀ (P : Config.Params) (i : Instr) (s t : State), execWith P i s = .next t →
    (∀ d : Fin 15, destReg i.rd ≠ some d → t.readReg d = s.readReg d) ∧
    t.pstate = { s.pstate with it := t.pstate.it } ∧
    (t.pstate.it ≠ s.pstate.it →
      P.admitItBlock = true ∧ i.set = .t32 ∧ s.pstate.it ≠ 0#8 ∧ t.pstate.it = itAdvance s.pstate.it) ∧
    t.spsr = s.spsr ∧
    ∀ a : Nat, t.mem.read a = s.mem.read a

/-! ### What each instruction does: both encodings complete -/

/-- `MRS Rd, CPSR`, A1 and T1, with the condition passed outside User mode (40_mrs.md R62, R65 (a), R60, R61): the masked
status value in `Rd`, `pc` moved on, `IT` advanced after T1 (logs 6, 12), nothing else changed. -/
def Obligations.CpsrReadOutsideUserMode : Prop :=
  ∀ (i : Instr) (s : State) (d : Fin 15), i.specReg = .cpsr → i.sbitsOk = true → destReg i.rd = some d →
    passes i s = true → s.pstate.m ≠ .user →
    exec i s = .next { s with
      x := s.x.set d.val (psr32 s.pstate &&& 0xF8EF03DF#32) d.isLt
      pc := s.pc + 4#32
      pstate := { s.pstate with it := itAfter i s } }

/-- `MRS Rd, CPSR`, A1 and T1, with the condition passed in User mode (R62, R65 (b), 10_state.md R25): bits 31:27, 23, 21 and
19:16 of the status value, the bits under 0x004003DF drawn fresh, for every value of the draw (log 4); `pc` moved on (log
12), `IT` advanced after T1 (log 6). -/
def Obligations.CpsrReadInUserMode : Prop :=
  ∀ (i : Instr) (s : State) (d : Fin 15), i.specReg = .cpsr → i.sbitsOk = true → destReg i.rd = some d →
    passes i s = true → s.pstate.m = .user →
    exec i s = .next { s with
      x := s.x.set d.val
        ((psr32 s.pstate &&& 0xF8AF0000#32) ||| (Config.unknown32 s.draws &&& 0x004003DF#32)) d.isLt
      pc := s.pc + 4#32
      pstate := { s.pstate with it := itAfter i s }
      draws := s.draws + 1 }

/-- `MRS Rd, SPSR`, A1 and T1, with the condition passed in a mode that has an SPSR (R62, R66, 10_state.md R22): all 32 bits
of it in `Rd`, no mask, whichever of the seven modes it is (that each of them has one: log 10); `pc` moved on (log 12), `IT`
advanced after T1 (log 6). -/
def Obligations.SpsrReadInItsMode : Prop :=
  ∀ (i : Instr) (s : State) (d : Fin 15), i.specReg = .spsr → i.sbitsOk = true → destReg i.rd = some d →
    passes i s = true → s.pstate.m ≠ .user → s.pstate.m ≠ .system →
    exec i s = .next { s with
      x := s.x.set d.val
        (match s.pstate.m with
          | .fiq => s.spsr.fiq
          | .irq => s.spsr.irq
          | .supervisor => s.spsr.svc
          | .monitor => s.spsr.mon
          | .abort => s.spsr.abt
          | .hyp => s.spsr.hyp
          | _ => s.spsr.und) d.isLt
      pc := s.pc + 4#32
      pstate := { s.pstate with it := itAfter i s } }

/-- `MRS Rd, SPSR`, A1 and T1, with the condition passed in User or System mode (R66): UNDEFINED with nothing changed (log
17), or a no-op that moves `pc` on (log 12), as the open parameter of this implementation has it (log 5). That a T1 runs
with `IT` not zero, and `IT` advances after it, is log 6. -/
def Obligations.SpsrReadInUserOrSystemMode : Prop :=
  ∀ (i : Instr) (s : State) (d : Fin 15), i.specReg = .spsr → i.sbitsOk = true → destReg i.rd = some d →
    passes i s = true → s.pstate.m = .user ∨ s.pstate.m = .system →
    exec i s =
      match Config.cuMrsSpsrUsrSys with
      | .undef => .fault .undefined
      | .nop => .next { s with pc := s.pc + 4#32, pstate := { s.pstate with it := itAfter i s } }

/-- An `MRS`, A1 or T1, whose condition fails (R60, R61): no register written in any mode, for either special register, and
`pc` moved on (log 12), `IT` advanced after T1 (log 6); the test of R66 is skipped with the rest. -/
def Obligations.FailedConditionOnlyMovesOn : Prop :=
  ∀ (i : Instr) (s : State) (d : Fin 15), i.sbitsOk = true → destReg i.rd = some d → passes i s = false →
    exec i s = .next { s with pc := s.pc + 4#32, pstate := { s.pstate with it := itAfter i s } }

/-- 60_exceptions.md R82, R85, under every value of the parameters: a wrong should-be bit, and after it `Rd = 1111`, stop A1
and T1 in every state, whatever the condition, the mode and `PSTATE.IT`: before the refusal of a T1 in an IT block that is
not admitted, and before a condition that fails (logs 18, 19). The last two clauses say so of `exec`. -/
def Obligations.DecodeTestsComeFirst : Prop :=
  (∀ (P : Config.Params) (i : Instr) (s : State),
    (i.sbitsOk = false → execWith P i s = .fault (.unpredictable .shouldBeBits)) ∧
    (i.sbitsOk = true → i.rd = 0b1111#4 → execWith P i s = .fault (.unpredictable .rd15))) ∧
  ∀ (i : Instr) (s : State),
    (i.sbitsOk = false → exec i s = .fault (.unpredictable .shouldBeBits)) ∧
    (i.sbitsOk = true → i.rd = 0b1111#4 → exec i s = .fault (.unpredictable .rd15))

/-- 40_mrs.md R61: the two encodings differ only in how `R`, `Rd` and the condition reach the operation. Outside an IT block
a T1 `MRS` does what the A1 one with condition `AL` does, in every case. -/
def Obligations.T1OutsideItBlockIsA1Always : Prop :=
  ∀ (r : SpecReg) (rd : BitVec 4) (ok : Bool) (s : State), s.pstate.it = 0#8 →
    exec (.mrsT1 r rd ok) s = exec (.mrsA1 0b1110#4 r rd ok) s

/-- 40_mrs.md R61, 60_exceptions.md R83: with `ADMIT_IT_BLOCK` false a T1 `MRS` is refused inside an IT block, once past the
decode tests, and outside one it does what it does with the parameter true (log 6). -/
def Obligations.ItBlockRefusedUnlessAdmitted : Prop :=
  ∀ (cu : Config.CuMrsSpsr) (r : SpecReg) (rd : BitVec 4) (ok : Bool) (s : State),
    (ok = true → rd ≠ 0b1111#4 → s.pstate.it ≠ 0#8 →
      mrsT1 { cuMrsSpsrUsrSys := cu, admitItBlock := false } r rd ok s = .refused .itBlockNotAdmitted) ∧
    (s.pstate.it = 0#8 →
      mrsT1 { cuMrsSpsrUsrSys := cu, admitItBlock := false } r rd ok s =
        mrsT1 { cuMrsSpsrUsrSys := cu, admitItBlock := true } r rd ok s)

/-- 60_exceptions.md R80 to R83, R85, R89, under every value of the parameters: exactly when an `MRS`, A1 or T1, stops. It is
refused exactly when it is a T1 past both decode tests with `IT` not zero and `ADMIT_IT_BLOCK` false; it faults exactly for
a wrong should-be bit, then `Rd = 1111` (logs 18, 19), then, admitted, for the SPSR in User or System mode with the
condition passed and the parameter UNDEF (log 17); no mode traps the `CPSR` form. `exec`, whose `ADMIT_IT_BLOCK` is true
against the spec's default (log 6), is therefore never refused, and faults only so. -/
def Obligations.MrsStopsOnlyAsListed : Prop :=
  (∀ (P : Config.Params) (i : Instr) (s : State),
    (∀ r, execWith P i s = .refused r ↔
      r = .itBlockNotAdmitted ∧ i.set = .t32 ∧ i.sbitsOk = true ∧ i.rd ≠ 0b1111#4 ∧ s.pstate.it ≠ 0#8 ∧
        P.admitItBlock = false) ∧
    ∀ f, execWith P i s = .fault f ↔
      (f = .unpredictable .shouldBeBits ∧ i.sbitsOk = false) ∨
      (f = .unpredictable .rd15 ∧ i.sbitsOk = true ∧ i.rd = 0b1111#4) ∨
      (f = .undefined ∧ i.sbitsOk = true ∧ i.rd ≠ 0b1111#4 ∧ admitted P i s = true ∧ i.specReg = .spsr ∧
        passes i s = true ∧ (s.pstate.m = .user ∨ s.pstate.m = .system) ∧ P.cuMrsSpsrUsrSys = .undef)) ∧
  ∀ (i : Instr) (s : State),
    (∀ r, exec i s ≠ .refused r) ∧
    ∀ f, exec i s = .fault f →
      (f = .unpredictable .shouldBeBits ∧ i.sbitsOk = false) ∨
      (f = .unpredictable .rd15 ∧ i.sbitsOk = true ∧ i.rd = 0b1111#4) ∨
      (f = .undefined ∧ i.sbitsOk = true ∧ i.rd ≠ 0b1111#4 ∧ i.specReg = .spsr ∧ passes i s = true ∧
        (s.pstate.m = .user ∨ s.pstate.m = .system) ∧ Config.cuMrsSpsrUsrSys = .undef)

/-! ### The step -/

/-- 40_mrs.md R67, 20_memory.md R32, R39: in a legal state, where the four bytes at `pc` are those of a unit `w` that decodes
to `i`, a step is `exec` of `i` at that state, with nothing added: `exec` itself moves `pc` past the instruction. In A32
bits `8k+7:8k` of `w` stand at `pc + k`; in T32 the first halfword, bits 31:16, stands at `pc` and the second at `pc + 2`,
each low byte first (log 13). -/
def Obligations.StepRunsTheDecodedInstruction : Prop :=
  ∀ (s : State) (w : Word) (i : Instr), s.pcAligned = true →
    ((s.pstate.t = false → s.pstate.it = 0#8 → decodeWord .a32 w = some i →
      s.mem.read s.pc.toNat = some (w.extractLsb' 0 8) → s.mem.read (s.pc + 1#32).toNat = some (w.extractLsb' 8 8) →
      s.mem.read (s.pc + 2#32).toNat = some (w.extractLsb' 16 8) →
      s.mem.read (s.pc + 3#32).toNat = some (w.extractLsb' 24 8) → step s = exec i s) ∧
    (s.pstate.t = true → decodeWord .t32 w = some i →
      s.mem.read s.pc.toNat = some (w.extractLsb' 16 8) → s.mem.read (s.pc + 1#32).toNat = some (w.extractLsb' 24 8) →
      s.mem.read (s.pc + 2#32).toNat = some (w.extractLsb' 0 8) →
      s.mem.read (s.pc + 3#32).toNat = some (w.extractLsb' 8 8) → step s = exec i s))

/-- 20_memory.md R33, 60_exceptions.md R83: no step is defined from a state whose `pc` is misaligned for its instruction set,
nor from an A32 state with `PSTATE.IT` not zero, whatever memory holds (log 16). -/
def Obligations.IllegalStatesAreRefused : Prop :=
  ∀ s : State,
    (s.pstate.t = true → s.pc &&& 1#32 ≠ 0#32 → step s = .refused .misalignedPc) ∧
    (s.pstate.t = false → s.pc &&& 3#32 ≠ 0#32 → step s = .refused .misalignedPc) ∧
    (s.pstate.t = false → s.pc &&& 3#32 = 0#32 → s.pstate.it ≠ 0#8 → step s = .refused .itInA32State)

/-- 20_memory.md R34, R39: a legal state in which `PROGRAM` lacks any of the four bytes at `pc` has no step (log 14). -/
def Obligations.UndefinedFetchIsStuck : Prop :=
  ∀ (s : State) (k : Nat), s.pcAligned = true → (s.pstate.t = true ∨ s.pstate.it = 0#8) → k < 4 →
    s.mem.read (s.pc + BitVec.ofNat 32 k).toNat = none → step s = .fault .programUndefined

/-- 30_encoding.md R51, 60_exceptions.md R83: fetched bytes that spell no `MRS` in the state's instruction set are refused
as `NotInScope`, with the word named (log 20). -/
def Obligations.OtherInstructionsAreRefused : Prop :=
  ∀ (s : State) (b0 b1 b2 b3 : Byte), s.pcAligned = true → (s.pstate.t = true ∨ s.pstate.it = 0#8) →
    s.fetch = some [b0, b1, b2, b3] →
    decodeWord s.instrSet (unitOfBytes s.instrSet b0 b1 b2 b3) = none →
    step s = .refused (.notInScope (.notInScope s.instrSet (unitOfBytes s.instrSet b0 b1 b2 b3)))

/-- A word of the opcode table placed where the next fetch reads is what the next step runs, from any state (log 24). -/
def Obligations.PlacedWordRunsNext : Prop :=
  ∀ (s : State) (w : Nat) (i : Instr), decodeTableWord 32 w = some i →
    step (s.withFetchWord 32 w) = exec i (s.withFetchWord 32 w)

/-- 10_state.md R13, R24, R25, over whole steps, whatever stands in memory: a step that completes adds 4 to `pc` modulo 2^32,
changes at most one register, no `PSTATE` field but `IT` (and that in T32 state only), no SPSR, no byte of memory, and
takes a draw only in User mode (`pc`: log 12; `IT`: log 6; draws: log 4; no interrupt is taken: log 22). -/
def Obligations.StepChangesOneRegisterAtMost : Prop :=
  ∀ s t : State, step s = .next t →
    t.pc = s.pc + 4#32 ∧
    (∃ d : Fin 15, ∀ d' : Fin 15, d' ≠ d → t.readReg d' = s.readReg d') ∧
    t.pstate = { s.pstate with it := t.pstate.it } ∧ (s.pstate.t = false → t.pstate.it = s.pstate.it) ∧
    t.spsr = s.spsr ∧ t.mem = s.mem ∧
    (t.draws = s.draws ∨ (s.pstate.m = .user ∧ t.draws = s.draws + 1))

/-! ### Invariants and runs -/

/-- 10_state.md R23: every step keeps the invariant of legal states, with the canonical form of memory (no interrupt is taken
in a step: log 22). -/
def Obligations.StepKeepsTheInvariant : Prop :=
  ∀ s t : State, Inv s → step s = .next t → Inv t

/-- The invariant holds at reset, whose values are the model's own (logs 1, 2, 3, 14). -/
def Obligations.ResetMeetsTheInvariant : Prop := Inv State.reset

/-- What `State.reset` holds. The spec states no reset value: every one is the model's own (logs 1, 2, 3, 14). -/
def Obligations.ResetValues : Prop :=
  (∀ d : Fin 15, State.reset.readReg d = 0#32) ∧ State.reset.pc = 0#32 ∧
  psr32 State.reset.pstate = 0x000001D3#32 ∧ State.reset.pstate.m = .supervisor ∧
  (∀ m v, spsrOfMode State.reset.spsr m = some v → v = 0#32) ∧ ∀ a, State.reset.mem.read a = none

/-- A run of any length from any state is straight-line code and keeps the processor's status (10_state.md R13, R24,
70_reset_and_hazards.md R97, 60_exceptions.md R89): after `k` completed steps `pc` has moved by `4k` modulo 2^32, and the
mode, the flags, every other `PSTATE` field but `IT`, every SPSR and all of memory are those of the start (`pc`: log 12;
`IT`: log 6). The claim is about runs in which no interrupt or other asynchronous exception is taken, no `MRS` is trapped and
no other agent acts: that the model has no such event is log 22 (60_exceptions.md R84, D19). -/
def Obligations.RunsAreStraightLine : Prop :=
  ∀ (k : Nat) (s t : State), core.run k s = .next t →
    t.pc = s.pc + BitVec.ofNat 32 (4 * k) ∧ t.pstate = { s.pstate with it := t.pstate.it } ∧
    t.spsr = s.spsr ∧ t.mem = s.mem

/-- 40_mrs.md R65 (b) as an isolation claim over runs of any length: two User-mode states that differ only in `E`, `A`, `I`,
`F`, `IL`, the unnamed bit 22 and the SPSRs go on alike, register for register, or stop alike, given the same draws. That
both runs draw the same bits, whatever the hidden fields, is the model's choice that a draw depends on the count of draws
alone (log 4): R25 puts a draw under no law, and lets it equal the field it replaces. The claim is about runs in which no
interrupt or other asynchronous exception is taken (log 22, D19). That the fields stand at the hidden bits is log 7, bit 22 log 8; that the open
parameter answers alike at every execution, whatever the state, is log 5. -/
def Obligations.UserModeCannotSeeHiddenFields : Prop :=
  ∀ (k : Nat) (s t : State), SameUserView s t → SameUserOutcome (core.run k s) (core.run k t)

/-- 70_reset_and_hazards.md R97: a watched run of at most `k` steps is final in `t` exactly when some number of completed
steps, from 1 to `k`, leads to `t` with `pc == END_PC` and no completed step before it did (log
28), over runs in which no interrupt is taken (log 22, D19). -/
def Obligations.RunIsFinalExactlyAtEndPc : Prop :=
  ∀ (endPc : Word) (k : Nat) (s t : State),
    runTo endPc k s = .final t ↔
      t.pc = endPc ∧ ∃ j, 1 ≤ j ∧ j ≤ k ∧ core.run j s = .next t ∧
        ∀ j' u, 1 ≤ j' → j' < j → core.run j' s = .next u → u.pc ≠ endPc
end

