-- ==== Sys2Proof/Laws/Bits.lean ====
section
/-! SUPPORT. Bit by bit what a placed field and the status value hold. -/

namespace Sys2Proof

/-- A placed field, bit by bit. -/
theorem placeAt_getLsbD {w : Nat} (lo : Nat) (field : BitVec w) (k : Nat) :
    (placeAt lo field).getLsbD k = (decide (k < 32) && decide (lo ≤ k) && field.getLsbD (k - lo)) := by
  unfold placeAt
  rw [BitVec.getLsbD_shiftLeft, BitVec.getLsbD_setWidth]
  by_cases h : k < 32 <;> by_cases h' : lo ≤ k
  · have hlt : k - lo < 32 := by omega
    have hge : ¬ k < lo := by omega
    simp [h, h', hlt, hge]
  · have hlt : k < lo := by omega
    simp [h', hlt]
  · simp [h]
  · simp [h]

theorem ofBool_getLsbD (b : Bool) (k : Nat) : (BitVec.ofBool b).getLsbD k = (decide (k = 0) && b) := by
  cases k <;> cases b <;> simp

/-- Two words are equal when their 32 bits are. -/
theorem word_ext {v w : Word} (h : ∀ k, k < 32 → v.getLsbD k = w.getLsbD k) : v = w :=
  BitVec.eq_of_getLsbD_eq fun k hk => h k hk

namespace Machine

/-- Every bit of the status value (10_state.md R19's table). -/
theorem psr32_getLsbD (p : PState) (k : Nat) (hk : k < 32) :
    (psr32 p).getLsbD k =
      match k with
      | 31 => p.n | 30 => p.z | 29 => p.c | 28 => p.v | 27 => p.q
      | 26 => p.it.getLsbD 1 | 25 => p.it.getLsbD 0 | 24 => false
      | 23 => p.p23 | 22 => p.p22 | 21 => p.p21 | 20 => p.il
      | 19 => p.ge.getLsbD 3 | 18 => p.ge.getLsbD 2 | 17 => p.ge.getLsbD 1 | 16 => p.ge.getLsbD 0
      | 15 => p.it.getLsbD 7 | 14 => p.it.getLsbD 6 | 13 => p.it.getLsbD 5 | 12 => p.it.getLsbD 4
      | 11 => p.it.getLsbD 3 | 10 => p.it.getLsbD 2
      | 9 => p.e | 8 => p.a | 7 => p.i | 6 => p.f | 5 => p.t
      | k => (modeBits p.m).getLsbD k := by
  unfold psr32
  simp only [BitVec.getLsbD_or, placeAt_getLsbD, ofBool_getLsbD, BitVec.getLsbD_extractLsb']
  interval_cases k <;> simp

end Machine
end Sys2Proof
end

