-- ==== Sys2Proof/Laws/State.lean ====
section
/-! SUPPORT. One lemma per field of `State` per named update, so that no later proof unfolds a record update. -/

namespace Sys2Proof.Machine

@[simp] theorem State.writeReg_x (s : State) (d : Fin 15) (v : Word) :
    (s.writeReg d v).x = s.x.set d.val v d.isLt := rfl
@[simp] theorem State.writeReg_pc (s : State) (d : Fin 15) (v : Word) : (s.writeReg d v).pc = s.pc := rfl
@[simp] theorem State.writeReg_pstate (s : State) (d : Fin 15) (v : Word) : (s.writeReg d v).pstate = s.pstate := rfl
@[simp] theorem State.writeReg_spsr (s : State) (d : Fin 15) (v : Word) : (s.writeReg d v).spsr = s.spsr := rfl
@[simp] theorem State.writeReg_mem (s : State) (d : Fin 15) (v : Word) : (s.writeReg d v).mem = s.mem := rfl
@[simp] theorem State.writeReg_draws (s : State) (d : Fin 15) (v : Word) : (s.writeReg d v).draws = s.draws := rfl

@[simp] theorem State.advancePc_x (s : State) : s.advancePc.x = s.x := rfl
@[simp] theorem State.advancePc_pc (s : State) : s.advancePc.pc = s.pc + 4#32 := rfl
@[simp] theorem State.advancePc_pstate (s : State) : s.advancePc.pstate = s.pstate := rfl
@[simp] theorem State.advancePc_spsr (s : State) : s.advancePc.spsr = s.spsr := rfl
@[simp] theorem State.advancePc_mem (s : State) : s.advancePc.mem = s.mem := rfl
@[simp] theorem State.advancePc_draws (s : State) : s.advancePc.draws = s.draws := rfl

@[simp] theorem State.advanceIt_true (s : State) :
    s.advanceIt true = { s with pstate := { s.pstate with it := itAdvance s.pstate.it } } := rfl
@[simp] theorem State.advanceIt_false (s : State) : s.advanceIt false = s := rfl
theorem State.advanceIt_x (s : State) (b : Bool) : (s.advanceIt b).x = s.x := by cases b <;> rfl
theorem State.advanceIt_pc (s : State) (b : Bool) : (s.advanceIt b).pc = s.pc := by cases b <;> rfl
theorem State.advanceIt_spsr (s : State) (b : Bool) : (s.advanceIt b).spsr = s.spsr := by cases b <;> rfl
theorem State.advanceIt_mem (s : State) (b : Bool) : (s.advanceIt b).mem = s.mem := by cases b <;> rfl
theorem State.advanceIt_draws (s : State) (b : Bool) : (s.advanceIt b).draws = s.draws := by cases b <;> rfl

@[simp] theorem State.noteDraw_x (s : State) : s.noteDraw.x = s.x := rfl
@[simp] theorem State.noteDraw_pc (s : State) : s.noteDraw.pc = s.pc := rfl
@[simp] theorem State.noteDraw_pstate (s : State) : s.noteDraw.pstate = s.pstate := rfl
@[simp] theorem State.noteDraw_spsr (s : State) : s.noteDraw.spsr = s.spsr := rfl
@[simp] theorem State.noteDraw_mem (s : State) : s.noteDraw.mem = s.mem := rfl
@[simp] theorem State.noteDraw_draws (s : State) : s.noteDraw.draws = s.draws + 1 := rfl

@[simp] theorem State.placeUnit_x (s : State) (set : InstrSet) (u : Word) : (s.placeUnit set u).x = s.x := rfl
@[simp] theorem State.placeUnit_pc (s : State) (set : InstrSet) (u : Word) :
    (s.placeUnit set u).pc = alignPc set s.pc := rfl
@[simp] theorem State.placeUnit_spsr (s : State) (set : InstrSet) (u : Word) :
    (s.placeUnit set u).spsr = s.spsr := rfl
@[simp] theorem State.placeUnit_mem (s : State) (set : InstrSet) (u : Word) :
    (s.placeUnit set u).mem = s.mem.writeBytes (alignPc set s.pc) (bytesOfUnit set u) := rfl
@[simp] theorem State.placeUnit_draws (s : State) (set : InstrSet) (u : Word) :
    (s.placeUnit set u).draws = s.draws := rfl

/-- Reading the register just written. -/
@[simp] theorem State.readReg_writeReg_self (s : State) (d : Fin 15) (v : Word) : (s.writeReg d v).readReg d = v := by
  simp [State.readReg]

/-- Reading another register than the one written. -/
theorem State.readReg_writeReg_ne (s : State) (d d' : Fin 15) (v : Word) (h : d' ≠ d) :
    (s.writeReg d v).readReg d' = s.readReg d' := by
  have : d.val ≠ d'.val := fun e => h (Fin.ext e.symm)
  simp [State.readReg, this]

end Sys2Proof.Machine
end

