-- ==== Sys2Proof/Laws/Mrs.lean ====
section
/-! SUPPORT. What each operation `MRS` is made of can do, said once, to be cited instead of unfolding it. -/

namespace Sys2Proof.Machine

theorem destReg_eq_some_iff (rd : BitVec 4) (d : Fin 15) : destReg rd = some d ↔ d.val = rd.toNat := by
  unfold destReg
  split
  · simp only [Option.some.injEq, Fin.ext_iff]
    exact eq_comm
  · have := d.isLt
    simp only [reduceCtorEq, false_iff]
    omega

theorem destReg_eq_none_iff (rd : BitVec 4) : destReg rd = none ↔ rd = 15#4 := by
  revert rd
  decide

/-- `withDest` hands on a next state only past both decode tests. -/
theorem withDest_eq_next_iff (ok : Bool) (rd : BitVec 4) (k : Fin 15 → Result) (t : State) :
    withDest ok rd k = .next t ↔ ok = true ∧ ∃ d, destReg rd = some d ∧ k d = .next t := by
  cases ok
  · simp [withDest, raiseUnpredictable]
  · cases h : destReg rd <;> simp [withDest, h, raiseUnpredictable]

/-- Past both decode tests, `withDest` is what it hands on. -/
theorem withDest_of_dest (rd : BitVec 4) (d : Fin 15) (k : Fin 15 → Result) (h : destReg rd = some d) :
    withDest true rd k = k d := by
  simp [withDest, h]

@[simp] theorem onNext_next (f : State → State) (s : State) : onNext f (.next s) = .next (f s) := rfl
@[simp] theorem onNext_fault (f : State → State) (r : Fault) : onNext f (.fault r) = .fault r := rfl
@[simp] theorem onNext_refused (f : State → State) (r : Refusal) : onNext f (.refused r) = .refused r := rfl

/-- A next state after `onNext` comes from a next state before it. -/
theorem onNext_eq_next_iff (f : State → State) (o : Result) (t : State) :
    onNext f o = .next t ↔ ∃ s, o = .next s ∧ f s = t := by
  cases o <;> simp [onNext]

@[simp] theorem readCpsr_pc (d : Fin 15) (s : State) : (readCpsr d s).pc = s.pc := by
  unfold readCpsr; split <;> rfl
@[simp] theorem readCpsr_pstate (d : Fin 15) (s : State) : (readCpsr d s).pstate = s.pstate := by
  unfold readCpsr; split <;> rfl
@[simp] theorem readCpsr_spsr (d : Fin 15) (s : State) : (readCpsr d s).spsr = s.spsr := by
  unfold readCpsr; split <;> rfl
@[simp] theorem readCpsr_mem (d : Fin 15) (s : State) : (readCpsr d s).mem = s.mem := by
  unfold readCpsr; split <;> rfl

/-- The `CPSR` form writes no register but its destination. -/
theorem readCpsr_readReg_ne (d d' : Fin 15) (s : State) (h : d' ≠ d) :
    (readCpsr d s).readReg d' = s.readReg d' := by
  unfold readCpsr
  split
  · rw [State.readReg_writeReg_ne _ _ _ _ h]; rfl
  · exact State.readReg_writeReg_ne _ _ _ _ h

/-- Everything the operation can do when it goes on: the `CPSR` form, a copy of the mode's SPSR, or the `NOP` outcome. -/
theorem mrsOperation_eq_next_iff (cu : Config.CuMrsSpsr) (d : Fin 15) (r : SpecReg) (s t : State) :
    mrsOperation cu d r s = .next t ↔
      (r = .cpsr ∧ t = readCpsr d s) ∨
      (r = .spsr ∧ ∃ v, s.currentSpsr = some v ∧ t = s.writeReg d v) ∨
      (r = .spsr ∧ s.currentSpsr = none ∧ cu = .nop ∧ t = s) := by
  cases r
  · simp [mrsOperation, eq_comm]
  · cases h : s.currentSpsr <;> cases cu <;> simp [mrsOperation, h, cuSpsrUsrSys, raiseUndefined, eq_comm]

/-- The modes without an SPSR are User and System mode (10_state.md R22). -/
theorem currentSpsr_eq_none_iff (s : State) : s.currentSpsr = none ↔ s.pstate.m = .user ∨ s.pstate.m = .system := by
  unfold State.currentSpsr
  cases s.pstate.m <;> simp [spsrOfMode]

/-- `EL0` is User mode (10_state.md R16). -/
theorem el_eq_el0_iff (s : State) : s.el = el0 ↔ s.pstate.m = .user := by
  unfold State.el
  cases s.pstate.m <;> simp [elOfMode, el0]

end Sys2Proof.Machine
end

