-- ==== Sys2Proof/Laws/Exec.lean ====
section
/-! SUPPORT. The one lemma that says what an admitted `MRS` of either encoding does past its decode tests. -/

namespace Sys2Proof.Safety

open Sys2Proof.Machine

/-- `exec` is the meaning under this model's parameters. -/
theorem exec_eq_execWith (i : Instr) (s : State) : exec i s = execWith params i s := by
  cases i <;> rfl

/-- Under this model's parameters every `MRS` is admitted (log 6). -/
theorem admitted_params (i : Instr) (s : State) : admitted params i s = true := by
  cases i <;> rfl

/-- A part of a step that goes on leaves `PSTATE` alone. -/
theorem mrsIfPassed_pstate (cu : Config.CuMrsSpsr) (cond : BitVec 4) (d : Fin 15) (r : SpecReg) (s t : State)
    (h : mrsIfPassed cu cond d r s = .next t) : t.pstate = s.pstate := by
  unfold mrsIfPassed at h
  split at h
  · rcases (mrsOperation_eq_next_iff _ _ _ _ _).mp h with ⟨_, rfl⟩ | ⟨_, v, _, rfl⟩ | ⟨_, _, _, rfl⟩ <;> simp
  · cases h
    rfl

/-- Either encoding, past its decode tests and admitted: the operation if the condition passes, then `pc` and `IT` move on
(40_mrs.md R60, R61). -/
theorem execWith_of_admitted (P : Config.Params) (i : Instr) (s : State) (d : Fin 15) (hok : i.sbitsOk = true)
    (hd : destReg i.rd = some d) (ha : admitted P i s = true) :
    execWith P i s =
      onNext (fun t => { t with pc := t.pc + 4#32, pstate := { t.pstate with it := itAfter i t } })
        (mrsIfPassed P.cuMrsSpsrUsrSys (conditionOf i s) d i.specReg s) := by
  cases i with
  | mrsA1 cond r rd ok =>
    obtain rfl : ok = true := hok
    exact withDest_of_dest rd d _ hd
  | mrsT1 r rd ok =>
    obtain rfl : ok = true := hok
    refine (withDest_of_dest rd d _ hd).trans ?_
    obtain ⟨cu, adm⟩ := P
    cases adm with
    | true => simp [conditionOf, itAfter, Instr.specReg, State.advancePc]
    | false =>
      have hz : s.pstate.it = 0#8 := by simpa [admitted] using ha
      have hcond : conditionOf (.mrsT1 r rd true) s = itCond 0#8 := by simp [conditionOf, hz]
      simp only [hcond, Instr.specReg, hz, ne_eq, not_true_eq_false, false_and, if_false]
      cases hm : mrsIfPassed cu (itCond 0#8) d r s with
      | next t =>
        have ht : t.pstate.it = 0#8 := by rw [mrsIfPassed_pstate _ _ _ _ _ _ hm, hz]
        have h0 : itAfter (.mrsT1 r rd true) t = t.pstate.it := by
          simp only [itAfter, ht]
          rfl
        simp [State.advancePc, h0]
      | fault => rfl
      | refused => rfl

end Sys2Proof.Safety
end

