-- ==== Sys2Proof/Laws/Memory.lean ====
section
/-! SUPPORT. The laws of instruction memory: read after write, and that every operation keeps the canonical form. -/

namespace Sys2Proof.Machine

@[simp] theorem Memory.read_nil (a : Nat) : Memory.read [] a = none := rfl

theorem Memory.read_cons (a' : Nat) (b : Byte) (m : Memory) (a : Nat) :
    Memory.read ((a', b) :: m) a = if a = a' then some b else Memory.read m a := rfl

/-- A read after a write gives the byte written at that address and leaves every other address alone. -/
theorem Memory.read_write (m : Memory) (a : Nat) (b : Byte) (a' : Nat) :
    Memory.read (Memory.write m a b) a' = if a' = a then some b else Memory.read m a' := by
  induction m with
  | nil => simp [Memory.write, Memory.read]
  | cons cell m ih =>
    obtain ⟨k, v⟩ := cell
    unfold Memory.write
    split
    · simp [Memory.read]
    · split
      · subst_vars
        by_cases h : a' = k <;> simp [Memory.read, h]
      · rename_i hlt hne
        by_cases h : a' = k
        · subst h
          simp [Memory.read, Ne.symm hne]
        · simp [Memory.read, h, ih]

theorem Memory.wf_cons (k : Nat) (v : Byte) (m : Memory) :
    Memory.wf ((k, v) :: m) = true ↔ k < 4294967296 ∧ (∀ cell ∈ m, k < cell.1) ∧ Memory.wf m = true := by
  simp [Memory.wf, and_assoc]

/-- Every address listed after a write is the address written or was listed before. -/
theorem Memory.mem_write (m : Memory) (a : Nat) (b : Byte) (cell : Host.Cell) (h : cell ∈ Memory.write m a b) :
    cell.1 = a ∨ cell ∈ m := by
  induction m with
  | nil =>
    simp only [Memory.write, List.mem_singleton] at h
    simp [h]
  | cons c m ih =>
    obtain ⟨k, v⟩ := c
    unfold Memory.write at h
    split at h
    · rcases List.mem_cons.mp h with h | h
      · simp [h]
      · exact .inr h
    · split at h
      · rcases List.mem_cons.mp h with h | h
        · simp [h]
        · exact .inr (List.mem_cons_of_mem _ h)
      · rcases List.mem_cons.mp h with h | h
        · simp [h]
        · rcases ih h with h | h
          · exact .inl h
          · exact .inr (List.mem_cons_of_mem _ h)

/-- Writing a byte keeps the canonical form. -/
theorem Memory.wf_write (m : Memory) (a : Nat) (b : Byte) (ha : a < 4294967296) (h : Memory.wf m = true) :
    Memory.wf (Memory.write m a b) = true := by
  induction m with
  | nil => simpa [Memory.write, Memory.wf] using ha
  | cons c m ih =>
    obtain ⟨k, v⟩ := c
    obtain ⟨hk, hall, hm⟩ := (Memory.wf_cons k v m).mp h
    unfold Memory.write
    split
    · rename_i hlt
      refine (Memory.wf_cons _ _ _).mpr ⟨ha, fun cell hc => ?_, h⟩
      rcases List.mem_cons.mp hc with rfl | hc
      · exact hlt
      · exact hlt.trans (hall _ hc)
    · split
      · subst_vars
        exact (Memory.wf_cons _ _ _).mpr ⟨ha, hall, hm⟩
      · refine (Memory.wf_cons _ _ _).mpr ⟨hk, fun cell hc => ?_, ih hm⟩
        rcases Memory.mem_write m a b cell hc with h1 | h1
        · omega
        · exact hall _ h1

/-- Writing bytes keeps the canonical form. -/
theorem Memory.wf_writeBytes (m : Memory) (a : Word) (bs : List Byte) (h : Memory.wf m = true) :
    Memory.wf (Memory.writeBytes m a bs) = true := by
  induction bs generalizing m a with
  | nil => exact h
  | cons b bs ih => exact ih _ _ (Memory.wf_write _ _ _ a.isLt h)

/-- Loading an instruction keeps memory canonical. -/
theorem State.placeUnit_wf (s : State) (set : InstrSet) (u : Word) (h : s.mem.wf = true) :
    (s.placeUnit set u).mem.wf = true :=
  Memory.wf_writeBytes _ _ _ h

theorem State.reset_mem_wf : State.reset.mem.wf = true := rfl

/-- Fetch's four reads, one by one. -/
theorem Memory.readBytes_four (m : Memory) (a : Word) (b0 b1 b2 b3 : Byte)
    (h0 : m.read a.toNat = some b0) (h1 : m.read (a + 1#32).toNat = some b1)
    (h2 : m.read (a + 1#32 + 1#32).toNat = some b2) (h3 : m.read (a + 1#32 + 1#32 + 1#32).toNat = some b3) :
    m.readBytes 4 a = some [b0, b1, b2, b3] := by
  simp only [Memory.readBytes, h0, h1, h2, h3]

end Sys2Proof.Machine
end

