-- ==== Sys2Proof/Laws/PerInstr.lean ====
section
/-! SUPPORT. A statement for each instruction as syntax: its encoding holds the fixed bits its row of
spec/opcode_table.json gives ("match" and "mask"), and its should-be bits are right exactly when it says so. -/

namespace Sys2Proof.Laws.FixedBits

/-- The row's "match" under its "mask", and its "should_be_value" under its "should_be_mask". -/
def Statement : Instr → Prop
  | .mrsA1 cond r rd ok =>
    encode (.mrsA1 cond r rd ok) &&& 0x0FB002F0#32 = 0x01000000#32 ∧
      (encode (.mrsA1 cond r rd ok) &&& 0x000F0D0F#32 = 0x000F0000#32 ↔ ok = true)
  | .mrsT1 r rd ok =>
    encode (.mrsT1 r rd ok) &&& 0xFFE0D020#32 = 0xF3E08000#32 ∧
      (encode (.mrsT1 r rd ok) &&& 0x000F20DF#32 = 0x000F0000#32 ↔ ok = true)

theorem mrsA1 (cond : BitVec 4) (r : SpecReg) (rd : BitVec 4) (ok : Bool) : Statement (.mrsA1 cond r rd ok) := by
  cases r <;> cases ok <;> revert cond rd <;> unfold Statement <;> decide

theorem mrsT1 (r : SpecReg) (rd : BitVec 4) (ok : Bool) : Statement (.mrsT1 r rd ok) := by
  cases r <;> cases ok <;> revert rd <;> unfold Statement <;> decide

end Sys2Proof.Laws.FixedBits
end

