-- ==== Sys2Proof/Laws/Step.lean ====
section
/-! SUPPORT. What a step can do, said once. -/

namespace Sys2Proof.Machine

/-- A step goes on only by running a decoded instruction. -/
theorem step_eq_next_iff (s t : State) :
    step s = .next t ↔
      s.outsideSpec = none ∧ ∃ bytes i rest, s.fetch = some bytes ∧ decode s.instrSet bytes = .ok (i, rest) ∧
        exec i s = .next t := by
  unfold step
  cases s.outsideSpec with
  | some r => simp
  | none =>
    cases hf : s.fetch with
    | none => simp
    | some bytes =>
      cases hd : decode s.instrSet bytes with
      | error why => simp [hd]
      | ok p =>
        obtain ⟨i, rest⟩ := p
        simp [hd]

/-- What running `MRS` A1 to a next state means. -/
theorem execMrsA1_eq_next_iff (cond : BitVec 4) (r : SpecReg) (rd : BitVec 4) (ok : Bool) (s t : State) :
    exec (.mrsA1 cond r rd ok) s = .next t ↔
      ok = true ∧ ∃ d, destReg rd = some d ∧
        ∃ u, mrsIfPassed params.cuMrsSpsrUsrSys cond d r s = .next u ∧ u.advancePc = t := by
  simp only [exec, execMrsA1, mrsA1, withDest_eq_next_iff, onNext_eq_next_iff]

/-- What running `MRS` T1 to a next state means. -/
theorem execMrsT1_eq_next_iff (r : SpecReg) (rd : BitVec 4) (ok : Bool) (s t : State) :
    exec (.mrsT1 r rd ok) s = .next t ↔
      ok = true ∧ ∃ d, destReg rd = some d ∧
        ∃ u, mrsIfPassed params.cuMrsSpsrUsrSys (itCond s.pstate.it) d r s = .next u ∧
          u.advancePc.advanceIt true = t := by
  simp [exec, execMrsT1, mrsT1, withDest_eq_next_iff, onNext_eq_next_iff, params]

end Sys2Proof.Machine
end

