-- ==== Sys2Proof/Tests/Slice0.lean ====
section
/-! SUPPORT. The model's own tests. Expected values are those of spec/95_test_vectors.md (V1 to V53), worked there from the
rules, or are written out from the diagrams of spec/30_encoding.md. The theorems `witness_<Statement>` show that the
hypotheses of a statement can be met. -/

namespace Sys2Proof.Tests

open Sys2Proof.Machine Sys2Proof.Safety

/-! ### Small states -/

/-- V24: Supervisor mode, `Z`, `C`, `A`, `I`, `F` set; its SPSR holds 0x80000010 (V27). -/
def inSupervisor : State :=
  State.launch 0x8000#32 { PState.reset with z := true, c := true } { SpsrFile.reset with svc := 0x80000010#32 } []

/-- V21: the same flags in User mode. -/
def inUser : State := { inSupervisor with pstate := { inSupervisor.pstate with m := .user } }

/-- V26's mode: System. -/
def inSystem : State := { inSupervisor with pstate := { inSupervisor.pstate with m := .system } }

/-- V28: IRQ mode, its SPSR all ones. -/
def inIrq : State :=
  State.launch 0x8000#32 { PState.reset with m := .irq } { SpsrFile.reset with irq := 0xFFFFFFFF#32 } []

/-- V25: T32, FIQ mode, every flag set, `IT` zero. -/
def inFiqT32 : State :=
  State.launch 0x8000#32
    { n := true, z := true, c := true, v := true, q := true, ge := 0xF#4, e := true, a := true, i := true, f := true,
      m := .fiq, t := true, it := 0#8, il := true, p23 := true, p22 := true, p21 := true } SpsrFile.reset []

/-- V22: T32, User mode, `C`, `Q`, `GE = 1010`. -/
def inUserT32 : State :=
  State.launch 0x8000#32
    { PState.reset with c := true, q := true, ge := 0b1010#4, a := false, i := false, f := false, m := .user, t := true }
    SpsrFile.reset []

/-- V51: T32 Supervisor mode inside an IT block, `IT = 00011000`: condition `NE`, the last of its block. -/
def inItBlock : State :=
  { inSupervisor with pstate := { inSupervisor.pstate with t := true, it := 0b00011000#8 } }

/-- The register a completed instruction leaves. -/
def regAfter (o : Result) (d : Fin 15) : Option Word :=
  match o with
  | .next t => some (t.readReg d)
  | _ => none

/-- The `pc` a completed instruction leaves. -/
def pcAfter (o : Result) : Option Word :=
  match o with
  | .next t => some t.pc
  | _ => none

/-! ### Well-formedness -/

theorem test_wellFormed_refuses_cond_1111 : (Instr.mrsA1 0b1111#4 .cpsr 0#4 true).wellFormed = false := by decide

/-! ### Decoding: words written out from the diagrams (R41, R45) -/

-- V1: cond 1110, 00010, R 0, 00, (1111), Rd 0000, (00), 0, (0), 0000, (0000)
theorem test_decode_V1 :
    decodeWord .a32 0b11100001000011110000000000000000#32 = some (.mrsA1 0b1110#4 .cpsr 0#4 true) := by decide
theorem test_decode_V2 : decodeWord .a32 0xE14F0000#32 = some (.mrsA1 0b1110#4 .spsr 0#4 true) := by decide
theorem test_decode_V4_V5 :
    decodeWord .a32 0x010F3000#32 = some (.mrsA1 0b0000#4 .cpsr 3#4 true) ∧
    decodeWord .a32 0xE14FD000#32 = some (.mrsA1 0b1110#4 .spsr 13#4 true) := by decide
-- V9: 11110011111, R 0, (1111), 10, (0), 0, Rd 0000, (00), 0, (00000)
theorem test_decode_V9 :
    decodeWord .t32 0b11110011111011111000000000000000#32 = some (.mrsT1 .cpsr 0#4 true) := by decide
theorem test_decode_V12 : decodeWord .t32 0xF3FF8C00#32 = some (.mrsT1 .spsr 12#4 true) := by decide
-- The byte images of V3 and V11.
theorem test_decode_bytes :
    decode .a32 [0x00#8, 0xC0#8, 0x0F#8, 0xE1#8] = .ok (.mrsA1 0b1110#4 .cpsr 12#4 true, []) ∧
    decode .t32 [0xEF#8, 0xF3#8, 0x00#8, 0x8D#8] = .ok (.mrsT1 .cpsr 13#4 true, []) := ⟨rfl, rfl⟩
theorem test_decode_too_short : decode .a32 [0x00#8, 0xC0#8] = .error (.tooShort 2) := rfl
theorem test_decode_wrong_should_be_bits_V18_to_V20 :
    [decodeWord .a32 0xE10E0000#32, decodeWord .a32 0xE10F0001#32, decodeWord .t32 0xF3EE8000#32,
      decodeWord .t32 0xF3EFA000#32, decodeWord .t32 0xF3EF8001#32].map (·.map Instr.sbitsOk) =
      List.replicate 5 (some false) := by decide
theorem test_decode_not_in_scope_V45_to_V50 :
    [decodeWord .a32 0xF10F0000#32, decodeWord .a32 0xE12FF000#32, decodeWord .a32 0xE10F0200#32,
      decodeWord .t32 0xF3EF8020#32, decodeWord .t32 0xF3EF9000#32, decodeWord .t32 0xF3AF8000#32] =
      List.replicate 6 none := by decide
-- A 16-bit T32 instruction's first halfword is no MRS (R50).
theorem test_decode_narrow_t32 : t32FirstHalfIsWide 0x4770#16 = false ∧ decodeWord .t32 0x47708000#32 = none := by decide
theorem test_encode_V8_V14 :
    encode (.mrsA1 0b1110#4 .spsr 1#4 true) = 0xE14F1000#32 ∧ encode (.mrsT1 .cpsr 8#4 true) = 0xF3EF8800#32 := by
  decide
theorem test_decodeTableWord :
    decodeTableWord 32 0xE10F0000 = some (.mrsA1 0b1110#4 .cpsr 0#4 true) ∧
    decodeTableWord 32 0xF3EF8000 = some (.mrsT1 .cpsr 0#4 true) := by decide
-- R53: case, suffix, qualifier and register names of a line.
theorem test_parse_and_assemble :
    parseMrs ['m', 'r', 's', 'N', 'E', '.', 'w', ' ', 'r', '7', ',', ' ', 's', 'p', 's', 'r'] =
      some { cond := some .ne, width := some .wide, rd := .num 7#4, specReg := .spsr } ∧
    assemble .a32 0#8 { cond := some .ne, width := some .wide, rd := .num 7#4, specReg := .spsr } =
      some (.mrsA1 0b0001#4 .spsr 7#4 true) ∧
    assemble .t32 0#8 { cond := none, width := some .narrow, rd := .sp, specReg := .apsr } = none := by decide

/-! ### Operations -/

-- V35 to V39: pass or fail of conditions 0000 to 1110 for NZCV = 0000, 0100, 0010, 1001, 1000, 0001, 0110, read as a
-- binary number of fifteen digits.
def passPattern (n z c v : Bool) : Nat :=
  (List.range 15).foldl (fun acc k => 2 * acc + (conditionHolds (BitVec.ofNat 4 k) n z c v).toNat) 0
theorem test_conditions_V35_to_V39 :
    passPattern false false false false = 0b010101010110101 ∧ passPattern false true false false = 0b100101010110011 ∧
    passPattern false false true false = 0b011001011010101 ∧ passPattern true false false true = 0b010110100110101 ∧
    passPattern true false false false = 0b010110010101011 ∧ passPattern false false false true = 0b010101100101011 ∧
    passPattern false true true false = 0b101001010110011 := by decide
-- PSR32 of V21, V22, V24, V25.
theorem test_psr32_V21_to_V25 :
    psr32 inUser.pstate = 0x600001D0#32 ∧ psr32 inUserT32.pstate = 0x280A0030#32 ∧
    psr32 inSupervisor.pstate = 0x600001D3#32 ∧ psr32 inFiqT32.pstate = 0xF8FF03F1#32 := by decide
-- R18: an IT block of two instructions moves to its second, then to none.
theorem test_itAdvance : itAdvance 0b00010100#8 = 0b00001000#8 ∧ itAdvance 0b00001000#8 = 0#8 := by decide
theorem test_memory_write_is_canonical :
    Memory.write (Memory.write [] 5 1#8) 3 2#8 = [(3, 2#8), (5, 1#8)] ∧
    Memory.wf (Memory.write (Memory.write [] 5 1#8) 3 2#8) = true ∧ Memory.wf [(5, 1#8), (3, 2#8)] = false := by decide

/-! ### One instruction at a time -/

theorem test_a1_cpsr_V24 :
    regAfter (exec (.mrsA1 0b1110#4 .cpsr 0#4 true) inSupervisor) 0 = some 0x600001D3#32 ∧
    pcAfter (exec (.mrsA1 0b1110#4 .cpsr 0#4 true) inSupervisor) = some 0x8004#32 := by decide
theorem test_a1_spsr_V28 :
    regAfter (exec (.mrsA1 0b1110#4 .spsr 13#4 true) inIrq) 13 = some 0xFFFFFFFF#32 := by decide
theorem test_t1_cpsr_V25 :
    regAfter (exec (.mrsT1 .cpsr 8#4 true) inFiqT32) 8 = some 0xF8EF03D1#32 := by decide
-- V22, for every draw: the bits under 0x004003DF are the draw's, the others 0x280A0000.
theorem test_t1_cpsr_V22 :
    regAfter (exec (.mrsT1 .cpsr 13#4 true) inUserT32) 13 =
      some (0x280A0000#32 ||| (Config.unknown32 0 &&& 0x004003DF#32)) := rfl

/-! ### Witnesses: the hypotheses of each statement can be met -/

theorem witness_A1RecognisedByMatchAndMask :
    decodeWord .a32 0xEFFFFFFF#32 = none ∧ (0xE10F0000#32 : Word) &&& 0x0FB002F0#32 = 0x01000000#32 ∧
    decodeWord .a32 0xE10F0000#32 = some (.mrsA1 0b1110#4 .cpsr 0#4 true) := by decide

theorem witness_T1RecognisedByMatchAndMask :
    decodeWord .t32 0xF3FF8F00#32 = some (.mrsT1 .spsr 15#4 true) := by decide

theorem witness_T1FieldsStandWhereStated :
    decodeWord .t32 0xF3EF8E00#32 = some (.mrsT1 .cpsr 14#4 true) := by decide

theorem witness_DecodeOfEncodeIsIdentity :
    (Instr.mrsA1 0b1110#4 .spsr 15#4 false).wellFormed = true ∧ (Instr.mrsT1 .cpsr 0#4 true).wellFormed = true ∧
    InstrSet.t32 ≠ (Instr.mrsA1 0b1110#4 .spsr 15#4 false).set ∧
    InstrSet.a32 ≠ (Instr.mrsT1 .cpsr 0#4 true).set := by decide

theorem witness_EncodeOfDecodeIsTheWord :
    decodeWord .a32 0xE14FF000#32 = some (.mrsA1 0b1110#4 .spsr 15#4 true) ∧
    (Instr.mrsA1 0b1110#4 .spsr 15#4 true).sbitsOk = true ∧
    decodeWord .t32 0xF3FF8F00#32 = some (.mrsT1 .spsr 15#4 true) ∧ (Instr.mrsT1 .spsr 15#4 true).sbitsOk = true := by
  decide

/-- One word for each clause, in order. -/
theorem witness_NeighboursOfMrs :
    (0xF10F0000#32 : Word).extractLsb' 28 4 = 0b1111#4 ∧
    (0xE10F0200#32 : Word) &&& 0x0FB002F0#32 ≠ 0x01000000#32 ∧
    (0xF3EF8020#32 : Word) &&& 0xFFE0D020#32 ≠ 0xF3E08000#32 ∧
    ((0xE14FF000#32 : Word) &&& 0x0FBFFFFF#32 = 0x010FF000#32 ∧ (0xE14FF000#32 : Word).extractLsb' 28 4 ≠ 0b1111#4) ∧
    (0xF3FF8F00#32 : Word) &&& 0xFFEFFFFF#32 = 0xF3EF8F00#32 ∧
    ((0xE10F0001#32 : Word) &&& 0x0FB002F0#32 = 0x01000000#32 ∧
      (0xE10F0001#32 : Word) &&& 0x000F0D0F#32 ≠ 0x000F0000#32 ∧ (0xE10F0001#32 : Word).extractLsb' 28 4 ≠ 0b1111#4) ∧
    ((0xF3EF8001#32 : Word) &&& 0xFFE0D020#32 = 0xF3E08000#32 ∧
      (0xF3EF8001#32 : Word) &&& 0x000F20DF#32 ≠ 0x000F0000#32) := by decide

/-- A line of A32, a line of T32 inside an IT block, each spelling `APSR`. -/
theorem witness_AssembledLineIsWhatIsDecoded :
    assemble .a32 0#8 { cond := some .le, width := none, rd := .pc, specReg := .apsr } =
      some (.mrsA1 0b1101#4 .cpsr 15#4 true) ∧
    assemble .t32 0b00011000#8 { cond := some .ne, width := some .wide, rd := .lr, specReg := .apsr } =
      some (.mrsT1 .cpsr 14#4 true) ∧ inItBlock.pstate.it = 0b00011000#8 := by decide

/-- `IT` values for each clause, at the edges of `IT[3:0]` and `IT[2:0]`. -/
theorem witness_ItConditionAndAdvance :
    (0xF0#8 : BitVec 8) &&& 0x0F#8 = 0#8 ∧ (0x11#8 : BitVec 8) &&& 0x0F#8 ≠ 0#8 ∧
    (0x18#8 : BitVec 8) &&& 0x07#8 = 0#8 ∧ (0x11#8 : BitVec 8) &&& 0x07#8 ≠ 0#8 := by decide

theorem witness_CpsrMaskHidesItIlAndT : inSystem.el ≠ el0 := by decide

theorem witness_ModesLevelsAndSpsrs : modeOfBits 0b11111#5 = some .system ∧ modeOfBits 0b10000#5 = some .user := by decide

/-- User and System mode for the first clause, a mode with an SPSR for the second. -/
theorem witness_OperationAsPseudocode :
    modeBits inUser.pstate.m = 0b10000#5 ∧ modeBits inSystem.pstate.m = 0b11111#5 ∧
    modeBits inIrq.pstate.m ≠ 0b10000#5 ∧ modeBits inIrq.pstate.m ≠ 0b11111#5 := by decide

/-- The common hypotheses of the `CPSR` form, A1 and T1, outside User mode (System included) and in it. -/
theorem witness_CpsrFormResults :
    (Instr.mrsA1 0b1110#4 .cpsr 14#4 true).specReg = .cpsr ∧ (Instr.mrsA1 0b1110#4 .cpsr 14#4 true).sbitsOk = true ∧
    destReg (Instr.mrsA1 0b1110#4 .cpsr 14#4 true).rd = some 14 ∧
    admitted ⟨.undef, false⟩ (.mrsA1 0b1110#4 .cpsr 14#4 true) inUser = true ∧
    admitted ⟨.undef, false⟩ (.mrsA1 0b1110#4 .cpsr 14#4 true) inSystem = true ∧
    admitted ⟨.undef, false⟩ (.mrsT1 .cpsr 0#4 true) inUserT32 = true ∧
    admitted ⟨.undef, false⟩ (.mrsT1 .cpsr 0#4 true) inFiqT32 = true ∧
    passes (.mrsA1 0b1110#4 .cpsr 14#4 true) inUser = true ∧ inUser.pstate.m = .user ∧
    passes (.mrsA1 0b1110#4 .cpsr 14#4 true) inSystem = true ∧ inSystem.pstate.m ≠ .user ∧
    (Instr.mrsT1 .cpsr 0#4 true).specReg = .cpsr ∧ (Instr.mrsT1 .cpsr 0#4 true).sbitsOk = true ∧
    destReg (Instr.mrsT1 .cpsr 0#4 true).rd = some 0 ∧
    passes (.mrsT1 .cpsr 0#4 true) inUserT32 = true ∧ inUserT32.pstate.m = .user ∧
    passes (.mrsT1 .cpsr 0#4 true) inFiqT32 = true ∧ inFiqT32.pstate.m ≠ .user := by decide

theorem witness_CpsrReadOutsideUserMode :
    ((Instr.mrsA1 0b0000#4 .cpsr 3#4 true).specReg = .cpsr ∧ (Instr.mrsA1 0b0000#4 .cpsr 3#4 true).sbitsOk = true ∧
      destReg (Instr.mrsA1 0b0000#4 .cpsr 3#4 true).rd = some 3 ∧
      passes (.mrsA1 0b0000#4 .cpsr 3#4 true) inSupervisor = true ∧ inSupervisor.pstate.m ≠ .user) ∧
    ((Instr.mrsT1 .cpsr 8#4 true).specReg = .cpsr ∧ (Instr.mrsT1 .cpsr 8#4 true).sbitsOk = true ∧
      destReg (Instr.mrsT1 .cpsr 8#4 true).rd = some 8 ∧ passes (.mrsT1 .cpsr 8#4 true) inFiqT32 = true ∧
      inFiqT32.pstate.m ≠ .user) := by decide

theorem witness_CpsrReadInUserMode :
    ((Instr.mrsA1 0b1110#4 .cpsr 0#4 true).specReg = .cpsr ∧ (Instr.mrsA1 0b1110#4 .cpsr 0#4 true).sbitsOk = true ∧
      destReg (Instr.mrsA1 0b1110#4 .cpsr 0#4 true).rd = some 0 ∧
      passes (.mrsA1 0b1110#4 .cpsr 0#4 true) inUser = true ∧ inUser.pstate.m = .user) ∧
    ((Instr.mrsT1 .cpsr 13#4 true).specReg = .cpsr ∧ (Instr.mrsT1 .cpsr 13#4 true).sbitsOk = true ∧
      destReg (Instr.mrsT1 .cpsr 13#4 true).rd = some 13 ∧ passes (.mrsT1 .cpsr 13#4 true) inUserT32 = true ∧
      inUserT32.pstate.m = .user) := by decide

theorem witness_SpsrReadInItsMode :
    ((Instr.mrsA1 0b1110#4 .spsr 13#4 true).specReg = .spsr ∧ (Instr.mrsA1 0b1110#4 .spsr 13#4 true).sbitsOk = true ∧
      destReg (Instr.mrsA1 0b1110#4 .spsr 13#4 true).rd = some 13 ∧
      passes (.mrsA1 0b1110#4 .spsr 13#4 true) inIrq = true ∧ inIrq.pstate.m ≠ .user ∧ inIrq.pstate.m ≠ .system) ∧
    ((Instr.mrsT1 .spsr 14#4 true).specReg = .spsr ∧ (Instr.mrsT1 .spsr 14#4 true).sbitsOk = true ∧
      destReg (Instr.mrsT1 .spsr 14#4 true).rd = some 14 ∧ passes (.mrsT1 .spsr 14#4 true) inFiqT32 = true ∧
      inFiqT32.pstate.m ≠ .user ∧ inFiqT32.pstate.m ≠ .system) := by decide

theorem witness_SpsrReadInUserOrSystemMode :
    ((Instr.mrsA1 0b1110#4 .spsr 0#4 true).specReg = .spsr ∧ (Instr.mrsA1 0b1110#4 .spsr 0#4 true).sbitsOk = true ∧
      destReg (Instr.mrsA1 0b1110#4 .spsr 0#4 true).rd = some 0 ∧
      passes (.mrsA1 0b1110#4 .spsr 0#4 true) inSystem = true ∧ inSystem.pstate.m = .system) ∧
    ((Instr.mrsT1 .spsr 5#4 true).specReg = .spsr ∧ (Instr.mrsT1 .spsr 5#4 true).sbitsOk = true ∧
      destReg (Instr.mrsT1 .spsr 5#4 true).rd = some 5 ∧ passes (.mrsT1 .spsr 5#4 true) inUserT32 = true ∧
      inUserT32.pstate.m = .user) := by decide

/-- `UNDEF` and `NOP` (V30, V31), a failed condition (V32), and a mode with an SPSR (V27). -/
theorem witness_SpsrFormUnderEitherConstraint :
    ((Instr.mrsA1 0b1110#4 .spsr 0#4 true).specReg = .spsr ∧ (Instr.mrsA1 0b1110#4 .spsr 0#4 true).sbitsOk = true ∧
      destReg (Instr.mrsA1 0b1110#4 .spsr 0#4 true).rd = some 0 ∧
      admitted ⟨.undef, false⟩ (.mrsA1 0b1110#4 .spsr 0#4 true) inUser = true ∧
      passes (.mrsA1 0b1110#4 .spsr 0#4 true) inUser = true ∧ inUser.pstate.m = .user) ∧
    ((Instr.mrsT1 .spsr 5#4 true).specReg = .spsr ∧ (Instr.mrsT1 .spsr 5#4 true).sbitsOk = true ∧
      destReg (Instr.mrsT1 .spsr 5#4 true).rd = some 5 ∧
      admitted ⟨.nop, false⟩ (.mrsT1 .spsr 5#4 true) inUserT32 = true ∧
      passes (.mrsT1 .spsr 5#4 true) inUserT32 = true ∧ inUserT32.pstate.m = .user) ∧
    ((Instr.mrsA1 0b0001#4 .spsr 0#4 true).specReg = .spsr ∧ (Instr.mrsA1 0b0001#4 .spsr 0#4 true).sbitsOk = true ∧
      destReg (Instr.mrsA1 0b0001#4 .spsr 0#4 true).rd = some 0 ∧
      admitted ⟨.undef, true⟩ (.mrsA1 0b0001#4 .spsr 0#4 true) inUser = true ∧
      passes (.mrsA1 0b0001#4 .spsr 0#4 true) inUser = false) ∧
    (admitted ⟨.undef, true⟩ (.mrsA1 0b1110#4 .spsr 0#4 true) inSupervisor = true ∧
      passes (.mrsA1 0b1110#4 .spsr 0#4 true) inSupervisor = true ∧
      spsrOfMode inSupervisor.spsr inSupervisor.pstate.m = some 0x80000010#32) := by decide

/-- A completed A1, and a completed T1 whose `IT` changes. -/
theorem witness_MrsFrame :
    (∃ t, execWith ⟨.nop, false⟩ (.mrsA1 0b1110#4 .cpsr 0#4 true) inSupervisor = .next t) ∧
    ∃ t, execWith ⟨.nop, true⟩ (.mrsT1 .cpsr 0#4 true) inItBlock = .next t ∧ t.pstate.it ≠ inItBlock.pstate.it :=
  ⟨⟨_, rfl⟩, ⟨_, rfl, by decide⟩⟩

/-- V32 and a T1 whose IT condition fails. -/
theorem witness_FailedConditionOnlyMovesOn :
    ((Instr.mrsA1 0b0001#4 .spsr 0#4 true).sbitsOk = true ∧ destReg (Instr.mrsA1 0b0001#4 .spsr 0#4 true).rd = some 0 ∧
      passes (.mrsA1 0b0001#4 .spsr 0#4 true) inUser = false) ∧
    ((Instr.mrsT1 .cpsr 14#4 true).sbitsOk = true ∧ destReg (Instr.mrsT1 .cpsr 14#4 true).rd = some 14 ∧
      passes (.mrsT1 .cpsr 14#4 true) inItBlock = false) := by decide

/-- Both clauses, A1 and T1; and the order of R85: in an IT block that is not admitted, each test stops a T1 before the
refusal does. -/
theorem witness_DecodeTestsComeFirst :
    (Instr.mrsA1 0b0000#4 .cpsr 15#4 false).sbitsOk = false ∧ (Instr.mrsT1 .spsr 15#4 true).sbitsOk = true ∧
    (Instr.mrsT1 .spsr 15#4 true).rd = 0b1111#4 ∧
    execWith ⟨.undef, false⟩ (.mrsT1 .cpsr 15#4 false) inItBlock = .fault (.unpredictable .shouldBeBits) ∧
    execWith ⟨.undef, false⟩ (.mrsT1 .spsr 15#4 true) inItBlock = .fault (.unpredictable .rd15) :=
  ⟨rfl, rfl, rfl, rfl, rfl⟩

theorem witness_T1OutsideItBlockIsA1Always : inFiqT32.pstate.it = 0#8 := by decide

theorem witness_ItBlockRefusedUnlessAdmitted :
    (0#4 : BitVec 4) ≠ 0b1111#4 ∧ inItBlock.pstate.it ≠ 0#8 ∧ inFiqT32.pstate.it = 0#8 := by decide

/-- Every stop of the list: the refusal, and the three faults. -/
theorem witness_MrsStopsOnlyAsListed :
    execWith ⟨.nop, false⟩ (.mrsT1 .cpsr 0#4 true) inItBlock = .refused .itBlockNotAdmitted ∧
    execWith ⟨.undef, false⟩ (.mrsA1 0b1110#4 .spsr 0#4 true) inUser = .fault .undefined ∧
    exec (.mrsA1 0b1110#4 .cpsr 15#4 true) inUser = .fault (.unpredictable .rd15) ∧
    exec (.mrsT1 .cpsr 15#4 false) inUser = .fault (.unpredictable .shouldBeBits) := ⟨rfl, rfl, rfl, rfl⟩

/-- V1's bytes at 0x8000, A32; V9's, T32. -/
def loadedA32 : State := { inSupervisor with mem := [(0x8000, 0x00#8), (0x8001, 0x00#8), (0x8002, 0x0F#8), (0x8003, 0xE1#8)] }
def loadedT32 : State := { inFiqT32 with mem := [(0x8000, 0xEF#8), (0x8001, 0xF3#8), (0x8002, 0x00#8), (0x8003, 0x80#8)] }

theorem witness_StepRunsTheDecodedInstruction :
    (loadedA32.pcAligned = true ∧ loadedA32.pstate.t = false ∧ loadedA32.pstate.it = 0#8 ∧
      decodeWord .a32 0xE10F0000#32 = some (.mrsA1 0b1110#4 .cpsr 0#4 true) ∧
      loadedA32.mem.read loadedA32.pc.toNat = some ((0xE10F0000#32 : Word).extractLsb' 0 8) ∧
      loadedA32.mem.read (loadedA32.pc + 1#32).toNat = some ((0xE10F0000#32 : Word).extractLsb' 8 8) ∧
      loadedA32.mem.read (loadedA32.pc + 2#32).toNat = some ((0xE10F0000#32 : Word).extractLsb' 16 8) ∧
      loadedA32.mem.read (loadedA32.pc + 3#32).toNat = some ((0xE10F0000#32 : Word).extractLsb' 24 8)) ∧
    (loadedT32.pcAligned = true ∧ loadedT32.pstate.t = true ∧
      decodeWord .t32 0xF3EF8000#32 = some (.mrsT1 .cpsr 0#4 true) ∧
      loadedT32.mem.read loadedT32.pc.toNat = some ((0xF3EF8000#32 : Word).extractLsb' 16 8) ∧
      loadedT32.mem.read (loadedT32.pc + 1#32).toNat = some ((0xF3EF8000#32 : Word).extractLsb' 24 8) ∧
      loadedT32.mem.read (loadedT32.pc + 2#32).toNat = some ((0xF3EF8000#32 : Word).extractLsb' 0 8) ∧
      loadedT32.mem.read (loadedT32.pc + 3#32).toNat = some ((0xF3EF8000#32 : Word).extractLsb' 8 8)) := by decide

/-- A state for each clause: T32 at an odd address, A32 at 2 past a word, A32 inside an IT block. -/
theorem witness_IllegalStatesAreRefused :
    (({ inFiqT32 with pc := 0x8001#32 } : State).pstate.t = true ∧ (0x8001#32 : Word) &&& 1#32 ≠ 0#32) ∧
    (({ inSupervisor with pc := 0x8002#32 } : State).pstate.t = false ∧ (0x8002#32 : Word) &&& 3#32 ≠ 0#32) ∧
    (({ inItBlock with pstate := { inItBlock.pstate with t := false } } : State).pstate.it ≠ 0#8 ∧
      inItBlock.pc &&& 3#32 = 0#32) := by decide

/-- The first and the last of the four bytes missing. -/
theorem witness_UndefinedFetchIsStuck :
    (inSupervisor.pcAligned = true ∧ inSupervisor.pstate.it = 0#8 ∧
      inSupervisor.mem.read (inSupervisor.pc + BitVec.ofNat 32 0).toNat = none) ∧
    (({ loadedT32 with mem := loadedT32.mem.take 3 } : State).pcAligned = true ∧ loadedT32.pstate.t = true ∧
      Memory.read (loadedT32.mem.take 3) (loadedT32.pc + BitVec.ofNat 32 3).toNat = none) := by decide

/-- V1's bytes in T32 state spell no `MRS`. -/
theorem witness_OtherInstructionsAreRefused :
    ({ loadedA32 with pstate := inFiqT32.pstate } : State).pcAligned = true ∧ inFiqT32.pstate.t = true ∧
    ({ loadedA32 with pstate := inFiqT32.pstate } : State).fetch = some [0x00#8, 0x00#8, 0x0F#8, 0xE1#8] ∧
    decodeWord .t32 (unitOfBytes .t32 0x00#8 0x00#8 0x0F#8 0xE1#8) = none := by decide

theorem witness_PlacedWordRunsNext :
    decodeTableWord 32 0xE14FE000 = some (.mrsA1 0b1110#4 .spsr 14#4 true) ∧
    decodeTableWord 32 0xF3FF8C00 = some (.mrsT1 .spsr 12#4 true) := by decide

theorem witness_StepChangesOneRegisterAtMost :
    (∃ t, step loadedA32 = .next t) ∧ ∃ t, step loadedT32 = .next t := ⟨⟨_, rfl⟩, ⟨_, rfl⟩⟩

theorem loadedA32_inv : Inv loadedA32 :=
  { mem_wf := by decide, it_zero_in_a32 := fun _ => by decide, pc_even := by decide, pc_word_in_a32 := fun _ => by decide }

theorem witness_StepKeepsTheInvariant : Inv loadedA32 ∧ ∃ t, step loadedA32 = .next t := ⟨loadedA32_inv, ⟨_, rfl⟩⟩

theorem witness_RunsAreStraightLine : ∃ t, core.run 1 loadedT32 = .next t := ⟨_, rfl⟩

/-- Two User-mode states that differ in `A`, `E`, the unnamed bit 22 and an SPSR. -/
theorem witness_UserModeCannotSeeHiddenFields :
    SameUserView inUser
      { inUser with
        pstate := { inUser.pstate with a := false, e := true, p22 := true }
        spsr := { inUser.spsr with fiq := 5#32 } } :=
  { user_left := rfl, user_right := rfl, x_eq := rfl, pc_eq := rfl, mem_eq := rfl, draws_eq := rfl,
    fields := ⟨rfl, rfl, rfl, rfl, rfl, rfl, rfl, rfl, rfl, rfl⟩ }

/-- `END_PC` one instruction on (R97). -/
theorem witness_RunIsFinalExactlyAtEndPc :
    ∃ t, runTo 0x8004#32 3 loadedA32 = .final t ∧ t.pc = 0x8004#32 := ⟨_, rfl, rfl⟩

end Sys2Proof.Tests
end

section
/-! PROOFS. The family `10_state.md`: the layout of the status value and its mask, the modes, the IT rules, the frame of
`MRS` and of a step, and the invariant of legal states. -/

namespace Sys2Proof.Machine

/-! ### The status value and its mask (10_state.md R19, R20) -/

/-- A field read out of a word is known from the word's bits. -/
theorem extractLsb'_eq_of_getLsbD {n : Nat} (w : Word) (lo : Nat) (field : BitVec n)
    (h : ∀ k, k < n → w.getLsbD (lo + k) = field.getLsbD k) : w.extractLsb' lo n = field := by
  refine BitVec.eq_of_getLsbD_eq fun k hk => ?_
  simp [hk, h k hk]

theorem psr32_it_low (p : PState) : (psr32 p).extractLsb' 25 2 = p.it.extractLsb' 0 2 := by
  refine extractLsb'_eq_of_getLsbD _ _ _ fun k hk => ?_
  rw [psr32_getLsbD p (25 + k) (by omega)]
  interval_cases k <;> simp

theorem psr32_it_high (p : PState) : (psr32 p).extractLsb' 10 6 = p.it.extractLsb' 2 6 := by
  refine extractLsb'_eq_of_getLsbD _ _ _ fun k hk => ?_
  rw [psr32_getLsbD p (10 + k) (by omega)]
  interval_cases k <;> simp

theorem psr32_ge (p : PState) : (psr32 p).extractLsb' 16 4 = p.ge := by
  refine extractLsb'_eq_of_getLsbD _ _ _ fun k hk => ?_
  rw [psr32_getLsbD p (16 + k) (by omega)]
  interval_cases k <;> rfl

theorem psr32_mode (p : PState) : (psr32 p).extractLsb' 0 5 = modeBits p.m := by
  refine extractLsb'_eq_of_getLsbD _ _ _ fun k hk => ?_
  rw [psr32_getLsbD p (0 + k) (by omega)]
  interval_cases k <;> rfl

/-- Under the mask, the fields `IT`, `IL` and `T` of the status value are gone and every other one is kept (R20). -/
theorem psr32_and_cpsrMask (p : PState) :
    psr32 p &&& cpsrMask = psr32 { p with it := 0#8, il := false, t := false } := by
  refine word_ext fun k hk => ?_
  rw [BitVec.getLsbD_and, psr32_getLsbD p k hk, psr32_getLsbD _ k hk]
  interval_cases k <;> simp [cpsrMask]

/-- Outside EL0 a `CPSR` read is the masked status value, with no bit drawn (40_mrs.md R65 (a)). -/
theorem readCpsr_of_el_ne (d : Fin 15) (s : State) (h : s.el ≠ el0) :
    readCpsr d s = s.writeReg d (psr32 s.pstate &&& cpsrMask) := by
  simp [readCpsr, h]

/-- At EL0 a `CPSR` read takes a draw (10_state.md R25). -/
theorem readCpsr_draws (d : Fin 15) (s : State) :
    (readCpsr d s).draws = if s.pstate.m = .user then s.draws + 1 else s.draws := by
  by_cases h : s.el = el0
  · simp [readCpsr, h, (el_eq_el0_iff s).mp h]
  · simp [readCpsr_of_el_ne d s h, mt (el_eq_el0_iff s).mpr h]

/-! ### The IT rules (10_state.md R18) -/

theorem low_four_zero_iff (it : BitVec 8) : it.extractLsb' 0 4 = 0b0000#4 ↔ it &&& 0x0F#8 = 0#8 := by
  revert it
  decide

theorem low_three_zero_iff (it : BitVec 8) : it.extractLsb' 0 3 = 0b000#3 ↔ it &&& 0x07#8 = 0#8 := by
  revert it
  decide

/-- `IT[7:5]` kept over `IT[3:0] : 0`, in the two masks of its parts. -/
theorem shifted_it_parts (it : BitVec 8) :
    (it.extractLsb' 5 3 ++ it.extractLsb' 0 4 ++ 0#1) &&& 0xE0#8 = it &&& 0xE0#8 ∧
    (it.extractLsb' 5 3 ++ it.extractLsb' 0 4 ++ 0#1) &&& 0x1F#8 = (it <<< 1) &&& 0x1F#8 := by
  revert it
  decide

/-- Outside an IT block the advance does nothing. -/
@[simp] theorem itAdvance_zero : itAdvance 0#8 = 0#8 := rfl

/-! ### Which instruction set an instruction is decoded in (30_encoding.md R40) -/

theorem decodeWord_set {set : InstrSet} {w : Word} {i : Instr} (h : decodeWord set w = some i) : i.set = set := by
  cases set with
  | a32 =>
    simp only [decodeWord, decodeA32, Option.ite_none_right_eq_some, Option.some.injEq] at h
    rw [← h.2]
    rfl
  | t32 =>
    simp only [decodeWord, decodeT32, Option.ite_none_right_eq_some, Option.some.injEq] at h
    rw [← h.2]
    rfl

theorem decode_set {set : InstrSet} {bytes rest : List Byte} {i : Instr} (h : decode set bytes = .ok (i, rest)) :
    i.set = set := by
  unfold decode at h
  split at h
  · split at h
    · rename_i hw
      cases h
      exact decodeWord_set hw
    · cases h
  · cases h

/-- A step goes on only by running an instruction of the set that `PSTATE.T` selects. -/
theorem exists_exec_of_step {s t : State} (h : step s = .next t) :
    ∃ i : Instr, i.set = s.instrSet ∧ exec i s = .next t := by
  obtain ⟨_, bytes, i, rest, _, hd, he⟩ := (step_eq_next_iff s t).mp h
  exact ⟨i, decode_set hd, he⟩

/-! ### The alignment of `pc` (20_memory.md R33) -/

/-- Adding 4 keeps the lowest two bits, and the lowest alone. -/
theorem extractLsb'_add_four (pc : Word) (n : Nat) (hn : n ≤ 2) :
    (pc + 4#32).extractLsb' 0 n = pc.extractLsb' 0 n := by
  apply BitVec.eq_of_toNat_eq
  simp only [BitVec.extractLsb'_toNat, BitVec.toNat_add, BitVec.toNat_ofNat, Nat.shiftRight_zero]
  interval_cases n <;> omega

end Sys2Proof.Machine

namespace Sys2Proof.Safety

open Sys2Proof.Machine

/-! ### The frame of `MRS` (10_state.md R24) -/

/-- What an operation with destination `d` may leave different: `x[d]`, and the count of draws in User mode. -/
structure OnlyWrites (d : Fin 15) (s u : State) : Prop where
  pc_eq : u.pc = s.pc
  pstate_eq : u.pstate = s.pstate
  spsr_eq : u.spsr = s.spsr
  mem_eq : u.mem = s.mem
  reg_eq : ∀ d' : Fin 15, d' ≠ d → u.readReg d' = s.readReg d'
  draws_eq : u.draws = s.draws ∨ (s.pstate.m = .user ∧ u.draws = s.draws + 1)

theorem onlyWrites_refl (d : Fin 15) (s : State) : OnlyWrites d s s :=
  ⟨rfl, rfl, rfl, rfl, fun _ _ => rfl, .inl rfl⟩

theorem onlyWrites_writeReg (d : Fin 15) (v : Word) (s : State) : OnlyWrites d s (s.writeReg d v) :=
  ⟨rfl, rfl, rfl, rfl, fun _ h => State.readReg_writeReg_ne _ _ _ _ h, .inl rfl⟩

theorem onlyWrites_readCpsr (d : Fin 15) (s : State) : OnlyWrites d s (readCpsr d s) where
  pc_eq := readCpsr_pc d s
  pstate_eq := readCpsr_pstate d s
  spsr_eq := readCpsr_spsr d s
  mem_eq := readCpsr_mem d s
  reg_eq _ h := readCpsr_readReg_ne _ _ _ h
  draws_eq := by
    rw [readCpsr_draws]
    split
    · exact .inr ⟨‹_›, rfl⟩
    · exact .inl rfl

/-- The part of an `MRS` under its condition writes its destination alone, whichever branch it takes. -/
theorem onlyWrites_of_mrsIfPassed {cu : Config.CuMrsSpsr} {cond : BitVec 4} {d : Fin 15} {r : SpecReg} {s u : State}
    (h : mrsIfPassed cu cond d r s = .next u) : OnlyWrites d s u := by
  unfold mrsIfPassed at h
  split at h
  · rcases (mrsOperation_eq_next_iff _ _ _ _ _).mp h with ⟨_, rfl⟩ | ⟨_, v, _, rfl⟩ | ⟨_, _, _, rfl⟩
    · exact onlyWrites_readCpsr d s
    · exact onlyWrites_writeReg d v s
    · exact onlyWrites_refl d u
  · cases h
    exact onlyWrites_refl d s

@[simp] theorem afterInstr_pc (i : Instr) (s : State) : (afterInstr i s).pc = s.pc + 4#32 := rfl
@[simp] theorem afterInstr_pstate (i : Instr) (s : State) :
    (afterInstr i s).pstate = { s.pstate with it := itAfter i s } := rfl
@[simp] theorem afterInstr_spsr (i : Instr) (s : State) : (afterInstr i s).spsr = s.spsr := rfl
@[simp] theorem afterInstr_mem (i : Instr) (s : State) : (afterInstr i s).mem = s.mem := rfl
@[simp] theorem afterInstr_draws (i : Instr) (s : State) : (afterInstr i s).draws = s.draws := rfl
@[simp] theorem afterInstr_readReg (i : Instr) (s : State) (d : Fin 15) :
    (afterInstr i s).readReg d = s.readReg d := rfl

/-- An instruction that goes on is past both decode tests and admitted. -/
theorem admitted_of_execWith {P : Config.Params} {i : Instr} {s t : State} (h : execWith P i s = .next t) :
    i.sbitsOk = true ∧ admitted P i s = true ∧ ∃ d, destReg i.rd = some d := by
  cases i with
  | mrsA1 cond r rd ok =>
    obtain ⟨hok, d, hd, _⟩ := (withDest_eq_next_iff _ _ _ _).mp h
    exact ⟨hok, rfl, d, hd⟩
  | mrsT1 r rd ok =>
    obtain ⟨hok, d, hd, hk⟩ := (withDest_eq_next_iff _ _ _ _).mp h
    refine ⟨hok, ?_, d, hd⟩
    by_cases hr : s.pstate.it ≠ 0#8 ∧ P.admitItBlock = false
    · simp [hr] at hk
    · simpa [admitted, or_comm] using not_and_or.mp hr

/-- All that an `MRS` of either encoding does when it goes on, under every value of the parameters. -/
theorem execWith_eq_next_iff (P : Config.Params) (i : Instr) (s t : State) :
    execWith P i s = .next t ↔
      i.sbitsOk = true ∧ admitted P i s = true ∧ ∃ d, destReg i.rd = some d ∧
        ∃ u, mrsIfPassed P.cuMrsSpsrUsrSys (conditionOf i s) d i.specReg s = .next u ∧ afterInstr i u = t := by
  constructor
  · intro h
    obtain ⟨hok, ha, d, hd⟩ := admitted_of_execWith h
    rw [execWith_of_admitted P i s d hok hd ha, onNext_eq_next_iff] at h
    exact ⟨hok, ha, d, hd, h⟩
  · rintro ⟨hok, ha, d, hd, h⟩
    rw [execWith_of_admitted P i s d hok hd ha, onNext_eq_next_iff]
    exact h

/-- What an `MRS` leaves is its destination written, then `pc` and `IT` moved on. -/
theorem exists_onlyWrites_of_execWith {P : Config.Params} {i : Instr} {s t : State} (h : execWith P i s = .next t) :
    ∃ d, destReg i.rd = some d ∧ ∃ u, OnlyWrites d s u ∧ afterInstr i u = t := by
  obtain ⟨_, _, d, hd, u, hu, ht⟩ := (execWith_eq_next_iff P i s t).mp h
  exact ⟨d, hd, u, onlyWrites_of_mrsIfPassed hu, ht⟩

/-- `IT` after an instruction depends on `PSTATE` alone. -/
theorem itAfter_congr (i : Instr) {s u : State} (h : u.pstate = s.pstate) : itAfter i u = itAfter i s := by
  cases i <;> simp [itAfter, h]

theorem itAfter_of_a32 {i : Instr} (s : State) (h : i.set = .a32) : itAfter i s = s.pstate.it := by
  cases i with
  | mrsA1 => rfl
  | mrsT1 => cases h

/-- `IT` moves only in a T1 inside an IT block that is admitted, and then by the advance (40_mrs.md R61). -/
theorem of_itAfter_ne {P : Config.Params} {i : Instr} {s : State} (ha : admitted P i s = true)
    (h : itAfter i s ≠ s.pstate.it) :
    P.admitItBlock = true ∧ i.set = .t32 ∧ s.pstate.it ≠ 0#8 ∧ itAfter i s = itAdvance s.pstate.it := by
  cases i with
  | mrsA1 => exact absurd rfl h
  | mrsT1 =>
    have hne : s.pstate.it ≠ 0#8 := fun h0 => h (by simp [itAfter, h0])
    exact ⟨by simpa [admitted, hne] using ha, rfl, hne, rfl⟩

/-- Settles O17: the destination is all the operation writes, and what follows it moves `pc` and `IT` alone. -/
theorem mrsFrame : Obligations.MrsFrame := by
  refine ⟨exec_eq_execWith, fun P i s t h => ?_⟩
  obtain ⟨_, ha, _⟩ := admitted_of_execWith h
  obtain ⟨d, hd, u, hu, rfl⟩ := exists_onlyWrites_of_execWith h
  refine ⟨fun d' hne => ?_, ?_, fun hit => ?_, ?_, fun a => ?_⟩
  · exact hu.reg_eq d' fun e => hne (e ▸ hd)
  · simp [hu.pstate_eq]
  · have hitu : (afterInstr i u).pstate.it = itAfter i s := itAfter_congr i hu.pstate_eq
    rw [hitu] at hit ⊢
    exact of_itAfter_ne ha hit
  · exact hu.spsr_eq
  · rw [afterInstr_mem, hu.mem_eq]

/-! ### Whole steps -/

/-- Settles O32: a step that completes runs one instruction of the state's set, and has that instruction's frame. -/
theorem stepChangesOneRegisterAtMost : Obligations.StepChangesOneRegisterAtMost := by
  intro s t h
  obtain ⟨i, hset, he⟩ := exists_exec_of_step h
  rw [exec_eq_execWith] at he
  obtain ⟨d, _, u, hu, rfl⟩ := exists_onlyWrites_of_execWith he
  refine ⟨?_, ⟨d, hu.reg_eq⟩, ?_, fun ht => ?_, hu.spsr_eq, hu.mem_eq, hu.draws_eq⟩
  · rw [afterInstr_pc, hu.pc_eq]
  · simp [hu.pstate_eq]
  · have ha32 : i.set = .a32 := by simp [hset, State.instrSet, instrSetOf, ht]
    exact (itAfter_of_a32 u ha32).trans (by rw [hu.pstate_eq])

/-- Settles O33: a step keeps memory and `PSTATE.T`, keeps `IT` in A32 state, and adds 4 to `pc`. -/
theorem stepKeepsTheInvariant : Obligations.StepKeepsTheInvariant := by
  intro s t hs h
  obtain ⟨hpc, _, hpstate, hit, _, hmem, _⟩ := stepChangesOneRegisterAtMost s t h
  have ht : t.pstate.t = s.pstate.t := by rw [hpstate]
  exact {
    mem_wf := hmem ▸ hs.mem_wf
    it_zero_in_a32 := fun h0 => (hit (ht ▸ h0)).trans (hs.it_zero_in_a32 (ht ▸ h0))
    pc_even := by rw [hpc, extractLsb'_add_four _ _ (by decide), hs.pc_even]
    pc_word_in_a32 := fun h0 => by
      rw [hpc, extractLsb'_add_four _ _ (by decide), hs.pc_word_in_a32 (ht ▸ h0)] }

/-- Settles O34: memory is empty, `IT` and `pc` are zero at reset. -/
theorem resetMeetsTheInvariant : Obligations.ResetMeetsTheInvariant where
  mem_wf := State.reset_mem_wf
  it_zero_in_a32 _ := rfl
  pc_even := rfl
  pc_word_in_a32 _ := rfl

/-! ### The status value, the IT rules and the modes -/

/-- Settles O12: the mask's bits are a finite fact; the masked value is compared with the status value bit by bit. -/
theorem cpsrMaskHidesItIlAndT : Obligations.CpsrMaskHidesItIlAndT := by
  refine ⟨rfl, rfl, rfl, by decide, by decide, fun d s h => ?_, psr32_and_cpsrMask⟩
  rw [readCpsr_of_el_ne d s h, State.readReg_writeReg_self]

/-- Settles O39: one-bit fields by the table of the status value's bits, wider ones by their field lemmas. -/
theorem statusValueLayout : Obligations.StatusValueLayout := by
  intro p
  have bit := psr32_getLsbD p
  exact ⟨bit 31 (by decide), bit 30 (by decide), bit 29 (by decide), bit 28 (by decide), bit 27 (by decide),
    psr32_it_low p, bit 24 (by decide), bit 23 (by decide), bit 22 (by decide), bit 21 (by decide),
    bit 20 (by decide), psr32_ge p, psr32_it_high p, bit 9 (by decide), bit 8 (by decide), bit 7 (by decide),
    bit 6 (by decide), bit 5 (by decide), psr32_mode p⟩

/-- Settles O11: each clause is one branch of the condition or of the advance. -/
theorem itConditionAndAdvance : Obligations.ItConditionAndAdvance := by
  intro it
  simp only [ne_eq, ← low_four_zero_iff, ← low_three_zero_iff]
  refine ⟨fun h => if_pos h, fun h => if_neg h, fun h => if_pos h, fun h => ?_⟩
  rw [itAdvance, if_neg h]
  exact shifted_it_parts it

/-- Settles O13: the encodings are distinct, so a mode is the first of the list with its encoding. -/
theorem modesLevelsAndSpsrs : Obligations.ModesLevelsAndSpsrs := by
  refine ⟨fun m => ?_, fun b m h => ?_, fun m => ?_, fun f m => ?_⟩
  · cases m <;> rfl
  · simpa using List.find?_some h
  · cases m <;> decide
  · cases m <;> simp [spsrOfMode, modeBits]

end Sys2Proof.Safety
end

section
/-! PROOFS. The family `20_memory.md`: which states no step is defined from, and a fetch where `PROGRAM` is undefined. -/

namespace Sys2Proof.Machine

/-! ### The alignment of `pc` (20_memory.md R33) -/

/-- The lowest `n` bits of a word are zero when its mask with `n` ones is. -/
theorem extractLsb'_eq_zero_iff_and (w mask : Word) (n : Nat) (hmask : mask.toNat = 2 ^ n - 1) :
    w.extractLsb' 0 n = 0#n ↔ w &&& mask = 0#32 := by
  rw [← BitVec.toNat_inj, ← BitVec.toNat_inj, BitVec.toNat_and, hmask, Nat.and_two_pow_sub_one_eq_mod]
  simp

theorem State.pcAligned_of_t32 {s : State} (ht : s.pstate.t = true) :
    s.pcAligned = true ↔ s.pc &&& 1#32 = 0#32 := by
  simp [State.pcAligned, ht, ← extractLsb'_eq_zero_iff_and s.pc 1#32 1 rfl]

theorem State.pcAligned_of_a32 {s : State} (ht : s.pstate.t = false) :
    s.pcAligned = true ↔ s.pc &&& 3#32 = 0#32 := by
  simp [State.pcAligned, ht, ← extractLsb'_eq_zero_iff_and s.pc 3#32 2 rfl]

/-! ### The legal states (10_state.md R23, 60_exceptions.md R83) -/

theorem State.outsideSpec_of_misaligned {s : State} (h : s.pcAligned = false) :
    s.outsideSpec = some .misalignedPc :=
  if_pos h

theorem State.outsideSpec_of_it {s : State} (h : s.pcAligned = true) (ht : s.pstate.t = false)
    (hit : s.pstate.it ≠ 0#8) : s.outsideSpec = some .itInA32State := by
  simp [State.outsideSpec, h, ht, hit]

theorem State.outsideSpec_eq_none_iff (s : State) :
    s.outsideSpec = none ↔ s.pcAligned = true ∧ (s.pstate.t = true ∨ s.pstate.it = 0#8) := by
  cases hal : s.pcAligned with
  | false => simp [State.outsideSpec, hal]
  | true => cases ht : s.pstate.t <;> simp [State.outsideSpec, hal, ht]

/-! ### The step's stops around the fetch -/

theorem step_of_outsideSpec {s : State} {r : Refusal} (h : s.outsideSpec = some r) : step s = .refused r := by
  simp only [step, h]

theorem step_of_misaligned {s : State} (h : s.pcAligned = false) : step s = .refused .misalignedPc :=
  step_of_outsideSpec (State.outsideSpec_of_misaligned h)

theorem step_of_fetch_eq_none {s : State} (hlegal : s.outsideSpec = none) (hfetch : s.fetch = none) :
    step s = .fault .programUndefined := by
  simp only [step, hlegal, hfetch]

/-- One undefined byte among those read leaves the whole read undefined (20_memory.md R34, R39). -/
theorem Memory.readBytes_eq_none_of_read {m : Memory} {n k : Nat} {a : Word} (hk : k < n)
    (h : m.read (a + BitVec.ofNat 32 k).toNat = none) : m.readBytes n a = none := by
  induction n generalizing a k with
  | zero => omega
  | succ n ih =>
    cases k with
    | zero =>
      have hfirst : m.read a.toNat = none := by simpa using h
      simp [Memory.readBytes, hfirst]
    | succ k =>
      have hassoc : a + BitVec.ofNat 32 (k + 1) = a + 1#32 + BitVec.ofNat 32 k := by
        rw [Nat.add_comm k 1, BitVec.ofNat_add, BitVec.add_assoc]
      have hrest : m.readBytes n (a + 1#32) = none := ih (by omega) (hassoc ▸ h)
      simp [Memory.readBytes, hrest]

end Sys2Proof.Machine

namespace Sys2Proof.Safety

open Sys2Proof.Machine

/-- Settles O29: the state is legal, so the step reaches its fetch, and the byte that is missing stops it there. -/
theorem undefinedFetchIsStuck : Obligations.UndefinedFetchIsStuck := by
  intro s k haligned hit hk hread
  have hlegal : s.outsideSpec = none := s.outsideSpec_eq_none_iff.mpr ⟨haligned, hit⟩
  exact step_of_fetch_eq_none hlegal (Memory.readBytes_eq_none_of_read hk hread)

/-- Settles O28: alignment is the masked `pc` being zero, and the legality test comes before the fetch. -/
theorem illegalStatesAreRefused : Obligations.IllegalStatesAreRefused := by
  refine fun s => ⟨fun ht hpc => ?_, fun ht hpc => ?_, fun ht hpc hit => ?_⟩
  · exact step_of_misaligned (Bool.eq_false_iff.mpr (mt (State.pcAligned_of_t32 ht).mp hpc))
  · exact step_of_misaligned (Bool.eq_false_iff.mpr (mt (State.pcAligned_of_a32 ht).mp hpc))
  · exact step_of_outsideSpec (State.outsideSpec_of_it ((State.pcAligned_of_a32 ht).mpr hpc) ht hit)

end Sys2Proof.Safety
end

section
/-! PROOFS. The family `30_encoding.md`: fields and masks of a word, the decoder as match and mask, the encoder's fields,
the round trips of both encodings, the words next to `MRS`, and the assembled lines. -/

namespace Sys2Proof

/-! ### Fields and masks of a word (00_scope.md R6) -/

/-- A masked field put back in its place is the word under the mask put there. -/
theorem placeAt_extractLsb'_and (w : Word) {n : Nat} (lo : Nat) (m : BitVec n) :
    placeAt lo (w.extractLsb' lo n &&& m) = w &&& placeAt lo m := by
  refine word_ext fun k hk => ?_
  rw [BitVec.getLsbD_and, placeAt_getLsbD, placeAt_getLsbD, BitVec.getLsbD_and, BitVec.getLsbD_extractLsb']
  by_cases hlo : lo ≤ k
  · by_cases hn : k - lo < n
    · simp [hk, hlo, hn]
    · simp [hn, BitVec.getLsbD_of_ge m (k - lo) (by omega)]
  · simp [hlo]

theorem placeAt_extractLsb' (w : Word) (lo n : Nat) :
    placeAt lo (w.extractLsb' lo n) = w &&& placeAt lo (BitVec.allOnes n) := by
  rw [← placeAt_extractLsb'_and, BitVec.and_allOnes]

/-- A field read where it was placed. -/
theorem extractLsb'_placeAt {n : Nat} (lo : Nat) (field : BitVec n) (h : lo + n ≤ 32) :
    (placeAt lo field).extractLsb' lo n = field := by
  refine Machine.extractLsb'_eq_of_getLsbD _ _ _ fun k hk => ?_
  have hlt : lo + k < 32 := by omega
  rw [placeAt_getLsbD]
  simp [hlt]

/-- A field read beside the one that was placed. -/
theorem extractLsb'_placeAt_of_disjoint {m : Nat} (lo n lo' : Nat) (field : BitVec m)
    (h : lo + n ≤ lo' ∨ lo' + m ≤ lo) : (placeAt lo' field).extractLsb' lo n = 0#n := by
  refine Machine.extractLsb'_eq_of_getLsbD _ _ _ fun k hk => ?_
  rw [placeAt_getLsbD]
  rcases h with h | h
  · have hlo : ¬ lo' ≤ lo + k := by omega
    simp [hlo]
  · simp [BitVec.getLsbD_of_ge field (lo + k - lo') (by omega)]

theorem placeAt_inj {n : Nat} (lo : Nat) (f g : BitVec n) (h : lo + n ≤ 32) :
    placeAt lo f = placeAt lo g ↔ f = g := by
  refine ⟨fun e => ?_, fun e => e ▸ rfl⟩
  rw [← extractLsb'_placeAt lo f h, e, extractLsb'_placeAt lo g h]

/-- A test of a field under a mask is a test of the word under that mask in its place. -/
theorem extractLsb'_and_eq_iff (w : Word) {n : Nat} (lo : Nat) (m v : BitVec n) (h : lo + n ≤ 32) :
    w.extractLsb' lo n &&& m = v ↔ w &&& placeAt lo m = placeAt lo v := by
  rw [← placeAt_extractLsb'_and, placeAt_inj _ _ _ h]

/-- A test of a whole field is a test of the word under a mask of ones. -/
theorem extractLsb'_eq_iff (w : Word) {n : Nat} (lo : Nat) (v : BitVec n) (h : lo + n ≤ 32) :
    w.extractLsb' lo n = v ↔ w &&& placeAt lo (BitVec.allOnes n) = placeAt lo v := by
  rw [← extractLsb'_and_eq_iff w lo _ v h, BitVec.and_allOnes]

/-- A test under a mask fixes every field the mask covers. -/
theorem extractLsb'_of_and_eq {w m v : Word} (lo n : Nat) (h : w &&& m = v)
    (hm : m.extractLsb' lo n = BitVec.allOnes n) : w.extractLsb' lo n = v.extractLsb' lo n := by
  rw [← h, BitVec.extractLsb'_and, hm, BitVec.and_allOnes]

/-- A test under a mask is also a test under every smaller one. -/
theorem and_eq_of_and_eq {w m v : Word} (m' : Word) (h : w &&& m = v) (hm : m &&& m' = m') :
    w &&& m' = v &&& m' := by
  rw [← h, BitVec.and_assoc, hm]

/-- Two tests under a mask are one under both masks, where the values agree on what the masks share. -/
theorem and_eq_and_and_eq_iff (w m₁ m₂ v₁ v₂ : Word) (h₁ : (v₁ ||| v₂) &&& m₁ = v₁) (h₂ : (v₁ ||| v₂) &&& m₂ = v₂) :
    (w &&& m₁ = v₁ ∧ w &&& m₂ = v₂) ↔ w &&& (m₁ ||| m₂) = v₁ ||| v₂ := by
  constructor
  · rintro ⟨h, h'⟩
    rw [BitVec.and_or_distrib_left, h, h']
  · intro h
    have hm₁ : (m₁ ||| m₂) &&& m₁ = m₁ := by ext; simp +contextual
    have hm₂ : (m₁ ||| m₂) &&& m₂ = m₂ := by ext; simp +contextual
    exact ⟨(and_eq_of_and_eq m₁ h hm₁).trans h₁, (and_eq_of_and_eq m₂ h hm₂).trans h₂⟩

/-- Words that agree under two masks agree under both at once. -/
theorem and_or_congr {v w m₁ m₂ : Word} (h₁ : v &&& m₁ = w &&& m₁) (h₂ : v &&& m₂ = w &&& m₂) :
    v &&& (m₁ ||| m₂) = w &&& (m₁ ||| m₂) := by
  rw [BitVec.and_or_distrib_left, BitVec.and_or_distrib_left, h₁, h₂]

/-- Words that agree in a field agree under the field's mask. -/
theorem and_congr_of_extractLsb' {v w : Word} {lo n : Nat} (h : v.extractLsb' lo n = w.extractLsb' lo n) :
    v &&& placeAt lo (BitVec.allOnes n) = w &&& placeAt lo (BitVec.allOnes n) := by
  rw [← placeAt_extractLsb', h, placeAt_extractLsb']

theorem eq_of_and_eq_and {v w m : Word} (h : v &&& m = w &&& m) (hm : m = BitVec.allOnes 32) : v = w := by
  rwa [hm, BitVec.and_allOnes, BitVec.and_allOnes] at h

/-- A field of a field. -/
theorem extractLsb'_extractLsb' (w : Word) {n n' : Nat} (lo lo' : Nat) (h : lo' + n' ≤ n) :
    (w.extractLsb' lo n).extractLsb' lo' n' = w.extractLsb' (lo + lo') n' := by
  refine BitVec.eq_of_getLsbD_eq fun k hk => ?_
  have hlt : lo' + k < n := by omega
  simp [hk, hlt, Nat.add_assoc]

/-! ### The cells of the diagrams as match and mask (30_encoding.md R42, R46) -/

theorem a1FixedCells_iff (w : Word) : a1FixedCells w = true ↔ w &&& 0x0FB002F0#32 = 0x01000000#32 := by
  simp (disch := decide) only [a1FixedCells, Bool.and_eq_true, beq_iff_eq, extractLsb'_eq_iff, and_eq_and_and_eq_iff]
  rfl

theorem a1ShouldBeCells_iff (w : Word) : a1ShouldBeCells w = true ↔ w &&& 0x000F0D0F#32 = 0x000F0000#32 := by
  simp (disch := decide) only [a1ShouldBeCells, Bool.and_eq_true, beq_iff_eq, extractLsb'_eq_iff, and_eq_and_and_eq_iff]
  rfl

theorem t1FixedCells_iff (w : Word) : t1FixedCells w = true ↔ w &&& 0xFFE0D020#32 = 0xF3E08000#32 := by
  simp (disch := decide) only [t1FixedCells, Bool.and_eq_true, beq_iff_eq, extractLsb'_eq_iff, and_eq_and_and_eq_iff]
  rfl

theorem t1ShouldBeCells_iff (w : Word) : t1ShouldBeCells w = true ↔ w &&& 0x000F20DF#32 = 0x000F0000#32 := by
  simp (disch := decide) only [t1ShouldBeCells, Bool.and_eq_true, beq_iff_eq, extractLsb'_eq_iff, and_eq_and_and_eq_iff]
  rfl

/-- The length rule of R50 says nothing more: the fixed cells begin a 32-bit instruction. -/
theorem t32FirstHalfIsWide_of_fixed {w : Word} (h : w &&& 0xFFE0D020#32 = 0xF3E08000#32) :
    t32FirstHalfIsWide (w.extractLsb' 16 16) = true := by
  have hw : w.extractLsb' 27 5 = 0b11110#5 := extractLsb'_of_and_eq 27 5 h rfl
  simp [t32FirstHalfIsWide, extractLsb'_extractLsb', hw]

/-! ### The special register (30_encoding.md R54) -/

theorem specRegOfBit_extractLsb' (w : Word) (k : Nat) :
    specRegOfBit (w.extractLsb' k 1) = if w.getLsbD k then .spsr else .cpsr := by
  have hbit : w.extractLsb' k 1 = BitVec.ofBool (w.getLsbD k) :=
    Machine.extractLsb'_eq_of_getLsbD _ _ _ fun j hj => by simp [Nat.lt_one_iff.mp hj]
  rw [hbit]
  cases w.getLsbD k <;> rfl

@[simp] theorem specRegOfBit_bitOfSpecReg (r : SpecReg) : specRegOfBit (bitOfSpecReg r) = r := by
  cases r <;> rfl

@[simp] theorem bitOfSpecReg_specRegOfBit (b : BitVec 1) : bitOfSpecReg (specRegOfBit b) = b := by
  revert b
  decide

/-! ### The decoder (30_encoding.md R42, R43, R46, R47) -/

/-- All an A32 unit can decode to, and when. -/
theorem decodeWord_a32_eq_some_iff (w : Word) (i : Instr) :
    decodeWord .a32 w = some i ↔
      (w &&& 0x0FB002F0#32 = 0x01000000#32 ∧ w.extractLsb' 28 4 ≠ 0b1111#4) ∧
        .mrsA1 (w.extractLsb' 28 4) (specRegOfBit (w.extractLsb' 22 1)) (w.extractLsb' 12 4) (a1ShouldBeCells w) = i := by
  simp [decodeWord, decodeA32, ← a1FixedCells_iff]

/-- All a T32 unit can decode to, and when. -/
theorem decodeWord_t32_eq_some_iff (w : Word) (i : Instr) :
    decodeWord .t32 w = some i ↔
      w &&& 0xFFE0D020#32 = 0xF3E08000#32 ∧
        .mrsT1 (specRegOfBit (w.extractLsb' 20 1)) (w.extractLsb' 8 4) (t1ShouldBeCells w) = i := by
  simp only [decodeWord, decodeT32, Option.ite_none_right_eq_some, Bool.and_eq_true, t1FixedCells_iff,
    and_iff_right_of_imp t32FirstHalfIsWide_of_fixed, Option.some.injEq]

/-- The two instruction sets share no word: A1 excludes the `cond` 1111 that T1 fixes (R41, R45). -/
theorem decodeWord_eq_none_of_other_set {set set' : InstrSet} {w : Word} {i : Instr}
    (h : decodeWord set w = some i) (hne : set' ≠ set) : decodeWord set' w = none := by
  have disjoint : ∀ i j, decodeWord .a32 w = some i → decodeWord .t32 w ≠ some j := fun i j hi hj => by
    obtain ⟨⟨_, hcond⟩, _⟩ := (decodeWord_a32_eq_some_iff w i).mp hi
    obtain ⟨hfixed, _⟩ := (decodeWord_t32_eq_some_iff w j).mp hj
    exact hcond (extractLsb'_of_and_eq 28 4 hfixed rfl)
  refine Option.eq_none_iff_forall_ne_some.mpr fun j hj => ?_
  cases set <;> cases set'
  · exact hne rfl
  · exact disjoint i j h hj
  · exact disjoint j i hj h
  · exact hne rfl

/-! ### The bytes of a unit (20_memory.md R32) -/

/-- A word put together from its four bytes. -/
theorem placeAt_bytes (w : Word) :
    placeAt 24 (w.extractLsb' 24 8) ||| placeAt 16 (w.extractLsb' 16 8) ||| placeAt 8 (w.extractLsb' 8 8) |||
      placeAt 0 (w.extractLsb' 0 8) = w := by
  simp only [placeAt_extractLsb', ← BitVec.and_or_distrib_left]
  exact BitVec.and_allOnes

/-- The decoder on a unit's own bytes is the decoder on the unit. -/
theorem decode_bytesOfUnit {set : InstrSet} {w : Word} {i : Instr} (rest : List Byte)
    (h : decodeWord set w = some i) : decode set (bytesOfUnit set w ++ rest) = .ok (i, rest) := by
  cases set <;> simp [decode, bytesOfUnit, unitOfBytes, placeAt_bytes, h]

/-! ### The encoder (30_encoding.md R41, R45) -/

section EncodedFields

variable (cond : BitVec 4) (r : SpecReg) (rd : BitVec 4) (ok : Bool)

theorem encode_mrsA1_cond : (encode (.mrsA1 cond r rd ok)).extractLsb' 28 4 = cond := by
  simp [encode, BitVec.extractLsb'_or, extractLsb'_placeAt, extractLsb'_placeAt_of_disjoint]

theorem encode_mrsA1_r : (encode (.mrsA1 cond r rd ok)).extractLsb' 22 1 = bitOfSpecReg r := by
  simp [encode, BitVec.extractLsb'_or, extractLsb'_placeAt, extractLsb'_placeAt_of_disjoint]

theorem encode_mrsA1_rd : (encode (.mrsA1 cond r rd ok)).extractLsb' 12 4 = rd := by
  simp [encode, BitVec.extractLsb'_or, extractLsb'_placeAt, extractLsb'_placeAt_of_disjoint]

theorem encode_mrsT1_r : (encode (.mrsT1 r rd ok)).extractLsb' 20 1 = bitOfSpecReg r := by
  simp [encode, BitVec.extractLsb'_or, extractLsb'_placeAt, extractLsb'_placeAt_of_disjoint]

theorem encode_mrsT1_rd : (encode (.mrsT1 r rd ok)).extractLsb' 8 4 = rd := by
  simp [encode, BitVec.extractLsb'_or, extractLsb'_placeAt, extractLsb'_placeAt_of_disjoint]

theorem a1ShouldBeCells_encode : a1ShouldBeCells (encode (.mrsA1 cond r rd ok)) = ok := by
  obtain ⟨_, hok⟩ := Laws.FixedBits.mrsA1 cond r rd ok
  exact Bool.eq_iff_iff.mpr ((a1ShouldBeCells_iff _).trans hok)

theorem t1ShouldBeCells_encode : t1ShouldBeCells (encode (.mrsT1 r rd ok)) = ok := by
  obtain ⟨_, hok⟩ := Laws.FixedBits.mrsT1 r rd ok
  exact Bool.eq_iff_iff.mpr ((t1ShouldBeCells_iff _).trans hok)

end EncodedFields

/-- The word of a well-formed instruction, decoded in its own set, is the instruction. -/
theorem decodeWord_encode {i : Instr} (h : i.wellFormed = true) : decodeWord i.set (encode i) = some i := by
  cases i with
  | mrsA1 cond r rd ok =>
    obtain ⟨hfixed, _⟩ := Laws.FixedBits.mrsA1 cond r rd ok
    have hcond : cond ≠ 0b1111#4 := by simpa [Instr.wellFormed] using h
    refine (decodeWord_a32_eq_some_iff _ _).mpr ⟨⟨hfixed, ?_⟩, ?_⟩
    · rwa [encode_mrsA1_cond]
    · rw [encode_mrsA1_cond, encode_mrsA1_r, encode_mrsA1_rd, a1ShouldBeCells_encode, specRegOfBit_bitOfSpecReg]
  | mrsT1 r rd ok =>
    obtain ⟨hfixed, _⟩ := Laws.FixedBits.mrsT1 r rd ok
    refine (decodeWord_t32_eq_some_iff _ _).mpr ⟨hfixed, ?_⟩
    rw [encode_mrsT1_r, encode_mrsT1_rd, t1ShouldBeCells_encode, specRegOfBit_bitOfSpecReg]

/-- Settles O4: the encoded fields read back, and no word belongs to both sets. -/
theorem decodeOfEncodeIsIdentity : Obligations.DecodeOfEncodeIsIdentity := by
  intro i rest hwf
  have hdec : decodeWord i.set (encode i) = some i := decodeWord_encode hwf
  exact ⟨decode_bytesOfUnit rest hdec, fun set hne => decodeWord_eq_none_of_other_set hdec hne⟩

/-! ### The word behind a decoded instruction (30_encoding.md R41, R45, R49) -/

theorem wellFormed_of_decodeWord {set : InstrSet} {w : Word} {i : Instr} (h : decodeWord set w = some i) :
    i.wellFormed = true := by
  cases set with
  | a32 =>
    obtain ⟨⟨_, hcond⟩, rfl⟩ := (decodeWord_a32_eq_some_iff w i).mp h
    simpa [Instr.wellFormed] using hcond
  | t32 =>
    obtain ⟨_, rfl⟩ := (decodeWord_t32_eq_some_iff w i).mp h
    rfl

theorem specRegOfBit_inj {b b' : BitVec 1} (h : specRegOfBit b = specRegOfBit b') : b = b' := by
  rw [← bitOfSpecReg_specRegOfBit b, h, bitOfSpecReg_specRegOfBit]

/-- One A32 word only spells an instruction with right should-be bits: its cells and fields are all of its bits. -/
theorem decodeWord_a32_inj {v w : Word} {i : Instr} (hok : i.sbitsOk = true) (hv : decodeWord .a32 v = some i)
    (hw : decodeWord .a32 w = some i) : v = w := by
  obtain ⟨⟨hvfixed, _⟩, rfl⟩ := (decodeWord_a32_eq_some_iff v i).mp hv
  obtain ⟨⟨hwfixed, _⟩, hfields⟩ := (decodeWord_a32_eq_some_iff w _).mp hw
  obtain ⟨hcond, hr, hrd, hsb⟩ := Instr.mrsA1.inj hfields
  have hvsb := (a1ShouldBeCells_iff v).mp hok
  have hwsb := (a1ShouldBeCells_iff w).mp (hsb.trans hok)
  have hcells := and_or_congr (hvfixed.trans hwfixed.symm) (hvsb.trans hwsb.symm)
  have hoperands := and_or_congr (and_congr_of_extractLsb' hcond.symm)
    (and_or_congr (and_congr_of_extractLsb' (specRegOfBit_inj hr.symm)) (and_congr_of_extractLsb' hrd.symm))
  exact eq_of_and_eq_and (and_or_congr hcells hoperands) (by decide)

/-- One T32 unit only spells an instruction with right should-be bits. -/
theorem decodeWord_t32_inj {v w : Word} {i : Instr} (hok : i.sbitsOk = true) (hv : decodeWord .t32 v = some i)
    (hw : decodeWord .t32 w = some i) : v = w := by
  obtain ⟨hvfixed, rfl⟩ := (decodeWord_t32_eq_some_iff v i).mp hv
  obtain ⟨hwfixed, hfields⟩ := (decodeWord_t32_eq_some_iff w _).mp hw
  obtain ⟨hr, hrd, hsb⟩ := Instr.mrsT1.inj hfields
  have hvsb := (t1ShouldBeCells_iff v).mp hok
  have hwsb := (t1ShouldBeCells_iff w).mp (hsb.trans hok)
  have hcells := and_or_congr (hvfixed.trans hwfixed.symm) (hvsb.trans hwsb.symm)
  have hoperands :=
    and_or_congr (and_congr_of_extractLsb' (specRegOfBit_inj hr.symm)) (and_congr_of_extractLsb' hrd.symm)
  exact eq_of_and_eq_and (and_or_congr hcells hoperands) (by decide)

/-- Settles O5: the word and the encoding both decode to the instruction, and only one word does. -/
theorem encodeOfDecodeIsTheWord : Obligations.EncodeOfDecodeIsTheWord := by
  intro set w i h
  have hwf : i.wellFormed = true := wellFormed_of_decodeWord h
  have henc : decodeWord i.set (encode i) = some i := decodeWord_encode hwf
  obtain rfl : i.set = set := Machine.decodeWord_set h
  refine ⟨hwf, rfl, fun hok => ?_⟩
  cases hset : i.set with
  | a32 => exact decodeWord_a32_inj hok (hset ▸ henc) (hset ▸ h)
  | t32 => exact decodeWord_t32_inj hok (hset ▸ henc) (hset ▸ h)

/-! ### Match and mask, whole (30_encoding.md R42, R46) -/

/-- The fixed cells and the should-be cells of A1 in one test. -/
theorem a1_match_and_shouldBe_iff (w : Word) :
    (w &&& 0x0FB002F0#32 = 0x01000000#32 ∧ w &&& 0x000F0D0F#32 = 0x000F0000#32) ↔
      w &&& 0x0FBF0FFF#32 = 0x010F0000#32 :=
  and_eq_and_and_eq_iff w 0x0FB002F0#32 0x000F0D0F#32 0x01000000#32 0x000F0000#32 rfl rfl

/-- The fixed cells and the should-be cells of T1 in one test. -/
theorem t1_match_and_shouldBe_iff (w : Word) :
    (w &&& 0xFFE0D020#32 = 0xF3E08000#32 ∧ w &&& 0x000F20DF#32 = 0x000F0000#32) ↔
      w &&& 0xFFEFF0FF#32 = 0xF3EF8000#32 :=
  and_eq_and_and_eq_iff w 0xFFE0D020#32 0x000F20DF#32 0xF3E08000#32 0x000F0000#32 rfl rfl

/-- A test of both halfwords of a T32 unit is one test of the unit (R46). -/
theorem halfwords_and_eq_iff (w : Word) (m₁ v₁ m₂ v₂ : Half) (h₁ : v₁ &&& m₁ = v₁) (h₂ : v₂ &&& m₂ = v₂) :
    (w.extractLsb' 16 16 &&& m₁ = v₁ ∧ w.extractLsb' 0 16 &&& m₂ = v₂) ↔
      w &&& (placeAt 16 m₁ ||| placeAt 0 m₂) = placeAt 16 v₁ ||| placeAt 0 v₂ := by
  rw [extractLsb'_and_eq_iff w 16 m₁ v₁ (by decide), extractLsb'_and_eq_iff w 0 m₂ v₂ (by decide)]
  refine and_eq_and_and_eq_iff _ _ _ _ _ ?_ ?_
  · rw [← placeAt_extractLsb'_and]
    simp [BitVec.extractLsb'_or, extractLsb'_placeAt, extractLsb'_placeAt_of_disjoint, h₁]
  · rw [← placeAt_extractLsb'_and]
    simp [BitVec.extractLsb'_or, extractLsb'_placeAt, extractLsb'_placeAt_of_disjoint, h₂]

theorem exists_decodeWord_a32_iff (w : Word) :
    (∃ i, decodeWord .a32 w = some i) ↔ w &&& 0x0FB002F0#32 = 0x01000000#32 ∧ w.extractLsb' 28 4 ≠ 0b1111#4 := by
  simp only [decodeWord_a32_eq_some_iff, exists_and_left, exists_eq', and_true]

theorem exists_decodeWord_t32_iff (w : Word) :
    (∃ i, decodeWord .t32 w = some i) ↔ w &&& 0xFFE0D020#32 = 0xF3E08000#32 := by
  simp only [decodeWord_t32_eq_some_iff, exists_and_left, exists_eq', and_true]

theorem exists_decodeWord_a32_sbitsOk_iff (w : Word) :
    (∃ i, decodeWord .a32 w = some i ∧ i.sbitsOk = true) ↔
      w &&& 0x0FBF0FFF#32 = 0x010F0000#32 ∧ w.extractLsb' 28 4 ≠ 0b1111#4 := by
  simp only [decodeWord_a32_eq_some_iff, and_assoc, exists_and_left, exists_eq_left', Instr.sbitsOk,
    a1ShouldBeCells_iff, ← a1_match_and_shouldBe_iff]
  rw [and_comm (a := w.extractLsb' 28 4 ≠ 0b1111#4)]

theorem exists_decodeWord_t32_sbitsOk_iff (w : Word) :
    (∃ i, decodeWord .t32 w = some i ∧ i.sbitsOk = true) ↔ w &&& 0xFFEFF0FF#32 = 0xF3EF8000#32 := by
  simp only [decodeWord_t32_eq_some_iff, and_assoc, exists_and_left, exists_eq_left', Instr.sbitsOk,
    t1ShouldBeCells_iff, t1_match_and_shouldBe_iff]

theorem a1ShouldBeCells_eq (w : Word) : a1ShouldBeCells w = (w &&& 0x000F0D0F#32 == 0x000F0000#32) :=
  Bool.eq_iff_iff.mpr ((a1ShouldBeCells_iff w).trans beq_iff_eq.symm)

theorem t1ShouldBeCells_eq (w : Word) : t1ShouldBeCells w = (w &&& 0x000F20DF#32 == 0x000F0000#32) :=
  Bool.eq_iff_iff.mpr ((t1ShouldBeCells_iff w).trans beq_iff_eq.symm)

/-- Settles O1: the diagram's cells are the match and the should-be test, and the fields are read off the decoder. -/
theorem a1RecognisedByMatchAndMask : Obligations.A1RecognisedByMatchAndMask := by
  refine fun w => ⟨exists_decodeWord_a32_iff w, exists_decodeWord_a32_sbitsOk_iff w, fun i h => ?_⟩
  obtain ⟨_, rfl⟩ := (decodeWord_a32_eq_some_iff w i).mp h
  rw [specRegOfBit_extractLsb', a1ShouldBeCells_eq]

/-- Settles O2: as for A1, and the unit's masks are its halfwords' masks side by side. -/
theorem t1RecognisedByMatchAndMask : Obligations.T1RecognisedByMatchAndMask := by
  intro w
  have hmatch := halfwords_and_eq_iff w 0xFFE0#16 0xF3E0#16 0xD020#16 0x8000#16 rfl rfl
  have hright := halfwords_and_eq_iff w 0xFFEF#16 0xF3EF#16 0xF0FF#16 0x8000#16 rfl rfl
  refine ⟨exists_decodeWord_t32_iff w, (exists_decodeWord_t32_iff w).trans hmatch.symm,
    exists_decodeWord_t32_sbitsOk_iff w, (exists_decodeWord_t32_sbitsOk_iff w).trans hright.symm, fun i h => ?_⟩
  obtain ⟨_, rfl⟩ := (decodeWord_t32_eq_some_iff w i).mp h
  rw [specRegOfBit_extractLsb', t1ShouldBeCells_eq]

/-- Settles O3: the decoder's fields, read in the unit and in its halfwords. -/
theorem t1FieldsStandWhereStated : Obligations.T1FieldsStandWhereStated := by
  intro w i h
  obtain ⟨_, rfl⟩ := (decodeWord_t32_eq_some_iff w i).mp h
  have hr := specRegOfBit_extractLsb' w 20
  refine ⟨hr, hr.trans ?_, rfl, ?_⟩
  · simp
  · rw [extractLsb'_extractLsb' w 0 8 (by decide)]
    rfl

/-- Settles O6: each word is a literal, and the decoder computes on it. -/
theorem sampleWordsDecode : Obligations.SampleWordsDecode := by
  unfold Obligations.SampleWordsDecode
  decide

end Sys2Proof

namespace Sys2Proof.Safety

open Sys2Proof.Machine

/-! ### The decode faults (60_exceptions.md R82, R85) -/

/-- A wrong should-be bit stops either encoding before anything else. -/
theorem execWith_of_sbitsOk_false (P : Config.Params) {i : Instr} (s : State) (hok : i.sbitsOk = false) :
    execWith P i s = .fault (.unpredictable .shouldBeBits) := by
  cases i with
  | mrsA1 cond r rd ok =>
    obtain rfl : ok = false := hok
    rfl
  | mrsT1 r rd ok =>
    obtain rfl : ok = false := hok
    rfl

/-- With right should-be bits, `Rd = 1111` stops either encoding before the condition and the IT admission. -/
theorem execWith_of_rd15 (P : Config.Params) {i : Instr} (s : State) (hok : i.sbitsOk = true)
    (hrd : i.rd = 0b1111#4) : execWith P i s = .fault (.unpredictable .rd15) := by
  cases i with
  | mrsA1 cond r rd ok =>
    obtain ⟨rfl, rfl⟩ : ok = true ∧ rd = 0b1111#4 := ⟨hok, hrd⟩
    rfl
  | mrsT1 r rd ok =>
    obtain ⟨rfl, rfl⟩ : ok = true ∧ rd = 0b1111#4 := ⟨hok, hrd⟩
    rfl

theorem exec_of_sbitsOk_false {i : Instr} (s : State) (hok : i.sbitsOk = false) :
    exec i s = .fault (.unpredictable .shouldBeBits) :=
  (exec_eq_execWith i s).trans (execWith_of_sbitsOk_false params s hok)

theorem exec_of_rd15 {i : Instr} (s : State) (hok : i.sbitsOk = true) (hrd : i.rd = 0b1111#4) :
    exec i s = .fault (.unpredictable .rd15) :=
  (exec_eq_execWith i s).trans (execWith_of_rd15 params s hok hrd)

/-! ### The words next to `MRS` (30_encoding.md R44, R48, R49, R51) -/

theorem decodeWord_a32_eq_none {w : Word}
    (h : ¬(w &&& 0x0FB002F0#32 = 0x01000000#32 ∧ w.extractLsb' 28 4 ≠ 0b1111#4)) : decodeWord .a32 w = none :=
  Option.eq_none_iff_forall_ne_some.mpr fun i hi => h ((exists_decodeWord_a32_iff w).mp ⟨i, hi⟩)

theorem decodeWord_t32_eq_none {w : Word} (h : w &&& 0xFFE0D020#32 ≠ 0xF3E08000#32) : decodeWord .t32 w = none :=
  Option.eq_none_iff_forall_ne_some.mpr fun i hi => h ((exists_decodeWord_t32_iff w).mp ⟨i, hi⟩)

/-- Settles O7: the first three clauses fail the match; the others pass it and fault in the decode tests. -/
theorem neighboursOfMrs : Obligations.NeighboursOfMrs := by
  refine ⟨fun w hcond => ?_, fun w hfixed => ?_, fun w => decodeWord_t32_eq_none, fun w h hcond => ?_, fun w h => ?_,
    fun w hfixed hsb hcond => ?_, fun w hfixed hsb => ?_⟩
  · exact decodeWord_a32_eq_none fun hm => hm.2 hcond
  · exact decodeWord_a32_eq_none fun hm => hfixed hm.1
  · have hfixed : w &&& 0x0FB002F0#32 = 0x01000000#32 := and_eq_of_and_eq _ h rfl
    have hsb : w &&& 0x000F0D0F#32 = 0x000F0000#32 := and_eq_of_and_eq _ h rfl
    have hrd : w.extractLsb' 12 4 = 0b1111#4 := extractLsb'_of_and_eq 12 4 h rfl
    exact ⟨_, (decodeWord_a32_eq_some_iff w _).mpr ⟨⟨hfixed, hcond⟩, rfl⟩,
      fun s => exec_of_rd15 s ((a1ShouldBeCells_iff w).mpr hsb) hrd⟩
  · have hfixed : w &&& 0xFFE0D020#32 = 0xF3E08000#32 := and_eq_of_and_eq _ h rfl
    have hsb : w &&& 0x000F20DF#32 = 0x000F0000#32 := and_eq_of_and_eq _ h rfl
    have hrd : w.extractLsb' 8 4 = 0b1111#4 := extractLsb'_of_and_eq 8 4 h rfl
    exact ⟨_, (decodeWord_t32_eq_some_iff w _).mpr ⟨hfixed, rfl⟩,
      fun s => exec_of_rd15 s ((t1ShouldBeCells_iff w).mpr hsb) hrd⟩
  · have hbad : a1ShouldBeCells w = false := Bool.eq_false_iff.mpr (mt (a1ShouldBeCells_iff w).mp hsb)
    exact ⟨_, (decodeWord_a32_eq_some_iff w _).mpr ⟨⟨hfixed, hcond⟩, rfl⟩, fun s => exec_of_sbitsOk_false s hbad⟩
  · have hbad : t1ShouldBeCells w = false := Bool.eq_false_iff.mpr (mt (t1ShouldBeCells_iff w).mp hsb)
    exact ⟨_, (decodeWord_t32_eq_some_iff w _).mpr ⟨hfixed, rfl⟩, fun s => exec_of_sbitsOk_false s hbad⟩

/-! ### Assembled lines (30_encoding.md R53, R54) -/

/-- No suffix is `cond` 1111. -/
theorem asmCondOf_ne_1111 (a : AsmMrs) : asmCondOf a ≠ 0b1111#4 := by
  unfold asmCondOf
  cases a.cond.getD .al <;> decide

theorem asmSpecReg_eq_spsr_iff (r : AsmSpecReg) : asmSpecReg r = .spsr ↔ r = .spsr := by
  cases r <;> simp [asmSpecReg]

/-- All a line can assemble to, and when. -/
theorem assemble_eq_some_iff (set : InstrSet) (it : BitVec 8) (a : AsmMrs) (i : Instr) :
    assemble set it a = some i ↔ a.width ≠ some .narrow ∧
      ((set = .a32 ∧ .mrsA1 (asmCondOf a) (asmSpecReg a.specReg) (asmRegBits a.rd) true = i) ∨
        (set = .t32 ∧ asmCondOf a = itCond it ∧ .mrsT1 (asmSpecReg a.specReg) (asmRegBits a.rd) true = i)) := by
  by_cases hw : a.width = some .narrow <;> cases set <;> simp [assemble, hw]

/-- `APSR` is a spelling of `CPSR`. -/
theorem assemble_cpsr_of_apsr (set : InstrSet) (it : BitVec 8) {a : AsmMrs} (h : a.specReg = .apsr) :
    assemble set it { a with specReg := .cpsr } = assemble set it a := by
  obtain ⟨cond, width, rd, r⟩ := a
  obtain rfl : r = .apsr := h
  rfl

/-- Settles O8: what is assembled is well formed, so its encoding decodes to it; its operands are the line's. -/
theorem assembledLineIsWhatIsDecoded : Obligations.AssembledLineIsWhatIsDecoded := by
  intro set it a i h
  have hcpsr : a.specReg = .apsr → assemble set it { a with specReg := .cpsr } = some i :=
    fun hr => (assemble_cpsr_of_apsr set it hr).trans h
  obtain ⟨_, ⟨rfl, rfl⟩ | ⟨rfl, hcond, rfl⟩⟩ := (assemble_eq_some_iff set it a i).mp h
  · have hwf : (Instr.mrsA1 (asmCondOf a) (asmSpecReg a.specReg) (asmRegBits a.rd) true).wellFormed = true := by
      simpa [Instr.wellFormed] using asmCondOf_ne_1111 a
    exact ⟨decodeWord_encode hwf, rfl, rfl, asmSpecReg_eq_spsr_iff _, fun _ _ => rfl, hcpsr⟩
  · exact ⟨decodeWord_encode (i := .mrsT1 _ _ true) rfl, rfl, rfl, asmSpecReg_eq_spsr_iff _,
      fun s hs => by rw [hcond, ← hs]; rfl, hcpsr⟩

/-! ### The refusal of other instructions (30_encoding.md R51, 60_exceptions.md R83) -/

theorem step_of_decode_error {s : State} {bytes : List Byte} {why : DecodeError} (hlegal : s.outsideSpec = none)
    (hfetch : s.fetch = some bytes) (hdec : decode s.instrSet bytes = .error why) :
    step s = .refused (.notInScope why) := by
  simp only [step, hlegal, hfetch, hdec]

/-- Settles O30: the state is legal and the fetch succeeds, so the step reaches the decoder, which finds no `MRS`. -/
theorem otherInstructionsAreRefused : Obligations.OtherInstructionsAreRefused := by
  intro s b0 b1 b2 b3 haligned hit hfetch hnone
  have hlegal : s.outsideSpec = none := s.outsideSpec_eq_none_iff.mpr ⟨haligned, hit⟩
  exact step_of_decode_error hlegal hfetch (by simp only [decode, hnone])

end Sys2Proof.Safety
end

section
/-! PROOFS. The family `40_mrs.md`: the condition table, the operation and its results, what either encoding does with its
condition passed and failed, the IT admission, the step on a fetched unit, and what User mode cannot see. -/

namespace Sys2Proof.Machine

/-! ### Conditions (40_mrs.md R63) -/

/-- An even condition is its base test. -/
theorem conditionPassed_of_even {cond : BitVec 4} (p : PState) (h : cond.extractLsb' 0 1 = 0#1) :
    conditionPassed cond p = conditionBase cond p.n p.z p.c p.v :=
  if_pos (.inl h)

/-- An odd condition but 1111 is its base test negated. -/
theorem conditionPassed_of_odd {cond : BitVec 4} (p : PState) (h : cond.extractLsb' 0 1 ≠ 0#1)
    (hne : cond ≠ 0b1111#4) : conditionPassed cond p = !conditionBase cond p.n p.z p.c p.v :=
  if_neg (not_or.mpr ⟨h, hne⟩)

/-! ### The result of the `CPSR` form (40_mrs.md R62, R65) -/

/-- In User mode a `CPSR` read takes a draw, and shows the bits of the status value and of the draw under two masks that
share no bit (R65 (b)). -/
theorem readCpsr_of_user (d : Fin 15) (s : State) (h : s.pstate.m = .user) :
    readCpsr d s =
      s.noteDraw.writeReg d ((psr32 s.pstate &&& 0xF8AF0000#32) ||| (s.unknown &&& 0x004003DF#32)) := by
  have hmask : cpsrMask &&& 0xFFBFFC20#32 = 0xF8AF0000#32 := rfl
  rw [readCpsr, if_pos ((el_eq_el0_iff s).mpr h), BitVec.and_assoc, hmask]
  rfl

/-- Outside User mode a `CPSR` read is the status value under the mask (R65 (a)). -/
theorem readCpsr_of_ne_user (d : Fin 15) (s : State) (h : s.pstate.m ≠ .user) :
    readCpsr d s = s.writeReg d (psr32 s.pstate &&& 0xF8EF03DF#32) :=
  readCpsr_of_el_ne d s (mt (el_eq_el0_iff s).mp h)

/-- The `CPSR` form changes nothing but `x[d]` and the count of draws. -/
theorem readCpsr_restored (d : Fin 15) (s : State) : { readCpsr d s with x := s.x, draws := s.draws } = s := by
  unfold readCpsr
  split <;> rfl

theorem unknownBits_getLsbD :
    ∀ k, k < 32 → unknownBits.getLsbD k = decide (k = 22 ∨ (6 ≤ k ∧ k ≤ 9) ∨ k ≤ 4) := by
  decide

/-- The status bits a User-mode read shows are those of the mask that are not drawn. -/
theorem userBits_getLsbD :
    ∀ k, k < 32 → (0xF8AF0000#32).getLsbD k = (cpsrMask.getLsbD k && !unknownBits.getLsbD k) := by
  decide

/-- The result of the `CPSR` form bit by bit, as the pseudocode of R62 assigns it. -/
theorem readCpsr_getLsbD (d : Fin 15) (s : State) (k : Nat) (hk : k < 32) :
    ((readCpsr d s).readReg d).getLsbD k =
      if s.el = el0 ∧ (k = 22 ∨ (6 ≤ k ∧ k ≤ 9) ∨ k ≤ 4) then s.unknown.getLsbD k
      else (psr32 s.pstate).getLsbD k && cpsrMask.getLsbD k := by
  by_cases hm : s.pstate.m = .user
  · have hdrawn : (0x004003DF#32).getLsbD k = decide (k = 22 ∨ (6 ≤ k ∧ k ≤ 9) ∨ k ≤ 4) :=
      unknownBits_getLsbD k hk
    rw [readCpsr_of_user d s hm, State.readReg_writeReg_self, BitVec.getLsbD_or, BitVec.getLsbD_and,
      BitVec.getLsbD_and, userBits_getLsbD k hk, unknownBits_getLsbD k hk, hdrawn]
    by_cases hbit : k = 22 ∨ (6 ≤ k ∧ k ≤ 9) ∨ k ≤ 4 <;> simp [hbit, (el_eq_el0_iff s).mpr hm]
  · have hel : s.el ≠ el0 := mt (el_eq_el0_iff s).mp hm
    simp [readCpsr_of_el_ne d s hel, hel]

/-- A mask keeps the bits set in it. -/
theorem getLsbD_and_of_set {w m : Word} {k : Nat} (h : m.getLsbD k = true) : (w &&& m).getLsbD k = w.getLsbD k := by
  rw [BitVec.getLsbD_and, h, Bool.and_true]

/-- Two masked words put together, read under a third mask. -/
theorem or_masked_and (a b m₁ m₂ m : Word) :
    ((a &&& m₁) ||| (b &&& m₂)) &&& m = (a &&& (m₁ &&& m)) ||| (b &&& (m₂ &&& m)) := by
  rw [← BitVec.and_assoc, ← BitVec.and_assoc]
  exact BitVec.and_or_distrib_right

/-! ### The `SPSR` form (40_mrs.md R62, R66) -/

theorem mrsOperation_spsr_of_none {s : State} (cu : Config.CuMrsSpsr) (d : Fin 15) (h : s.currentSpsr = none) :
    mrsOperation cu d .spsr s = cuSpsrUsrSys cu s := by
  simp only [mrsOperation, h]

theorem mrsOperation_spsr_of_some {s : State} {v : Word} (cu : Config.CuMrsSpsr) (d : Fin 15)
    (h : s.currentSpsr = some v) : mrsOperation cu d .spsr s = .next (s.writeReg d v) := by
  simp only [mrsOperation, h]

/-- User and System mode by their encodings, which is how the pseudocode names them (10_state.md R15). -/
theorem currentSpsr_eq_none_iff_modeBits (s : State) :
    s.currentSpsr = none ↔ modeBits s.pstate.m = 0b10000#5 ∨ modeBits s.pstate.m = 0b11111#5 :=
  Safety.modesLevelsAndSpsrs.2.2.2 s.spsr s.pstate.m

/-! ### A T1 `MRS` and its IT block (40_mrs.md R61) -/

theorem exists_destReg {rd : BitVec 4} (h : rd ≠ 15#4) : ∃ d, destReg rd = some d :=
  Option.ne_none_iff_exists'.mp (mt (destReg_eq_none_iff rd).mp h)

theorem State.advanceIt_of_it_zero {s : State} (admitted : Bool) (h : s.pstate.it = 0#8) :
    s.advanceIt admitted = s := by
  cases admitted with
  | false => rfl
  | true =>
    have hadv : itAdvance s.pstate.it = s.pstate.it := by rw [h, itAdvance_zero]
    rw [State.advanceIt_true, hadv]

theorem onNext_congr {f g : State → State} {o : Result} (h : ∀ t, o = .next t → f t = g t) :
    onNext f o = onNext g o := by
  cases o with
  | next t => exact congrArg _ (h t rfl)
  | fault => rfl
  | refused => rfl

/-- With `IT` zero a T1 `MRS` is the A1 one with condition `AL`, whether or not IT blocks are admitted. -/
theorem mrsT1_of_it_zero (P : Config.Params) (r : SpecReg) (rd : BitVec 4) (ok : Bool) {s : State}
    (h : s.pstate.it = 0#8) : mrsT1 P r rd ok s = mrsA1 P 0b1110#4 r rd ok s := by
  refine congrArg (withDest ok rd) (funext fun d => ?_)
  have hcond : itCond s.pstate.it = 0b1110#4 := by rw [h]; rfl
  rw [if_neg fun hr => hr.1 h, hcond]
  refine onNext_congr fun t ht => State.advanceIt_of_it_zero _ ?_
  rw [State.advancePc_pstate, Safety.mrsIfPassed_pstate _ _ _ _ _ _ ht, h]

/-! ### The step on a fetched unit (40_mrs.md R67) -/

theorem step_of_decode_ok {s : State} {bytes rest : List Byte} {i : Instr} (hlegal : s.outsideSpec = none)
    (hfetch : s.fetch = some bytes) (hdec : decode s.instrSet bytes = .ok (i, rest)) : step s = exec i s := by
  simp only [step, hlegal, hfetch, hdec]

/-- A unit that stands whole at `pc` and decodes is what a step from a legal state runs. -/
theorem step_of_unit {s : State} {w : Word} {i : Instr} (hlegal : s.outsideSpec = none)
    (hfetch : s.fetch = some (bytesOfUnit s.instrSet w)) (hdec : decodeWord s.instrSet w = some i) :
    step s = exec i s := by
  have hok : decode s.instrSet (bytesOfUnit s.instrSet w) = .ok (i, []) := by
    simpa using decode_bytesOfUnit [] hdec
  exact step_of_decode_ok hlegal hfetch hok

theorem State.instrSet_of_a32 {s : State} (h : s.pstate.t = false) : s.instrSet = .a32 := by
  simp [State.instrSet, instrSetOf, h]

theorem State.instrSet_of_t32 {s : State} (h : s.pstate.t = true) : s.instrSet = .t32 := by
  simp [State.instrSet, instrSetOf, h]

/-- Fetch's four reads, at `pc`, `pc + 1`, `pc + 2` and `pc + 3`. -/
theorem State.fetch_of_read {s : State} {b0 b1 b2 b3 : Byte} (h0 : s.mem.read s.pc.toNat = some b0)
    (h1 : s.mem.read (s.pc + 1#32).toNat = some b1) (h2 : s.mem.read (s.pc + 2#32).toNat = some b2)
    (h3 : s.mem.read (s.pc + 3#32).toNat = some b3) : s.fetch = some [b0, b1, b2, b3] := by
  have e2 : s.pc + 1#32 + 1#32 = s.pc + 2#32 := BitVec.add_assoc _ _ _
  have e3 : s.pc + 2#32 + 1#32 = s.pc + 3#32 := BitVec.add_assoc _ _ _
  exact Memory.readBytes_four _ _ _ _ _ _ h0 h1 (by rwa [e2]) (by rwa [e2, e3])

/-! ### A placed unit (70_reset_and_hazards.md section 1) -/

theorem add_one_add_ofNat (a : Word) (k : Nat) : a + 1#32 + BitVec.ofNat 32 k = a + BitVec.ofNat 32 (k + 1) := by
  rw [Nat.add_comm k 1, BitVec.ofNat_add, BitVec.add_assoc]

/-- Writing bytes leaves an address none of them is written to. -/
theorem Memory.read_writeBytes_of_ne (m : Memory) (a : Word) (bs : List Byte) (x : Nat)
    (h : ∀ k, k < bs.length → x ≠ (a + BitVec.ofNat 32 k).toNat) : (m.writeBytes a bs).read x = m.read x := by
  induction bs generalizing m a with
  | nil => rfl
  | cons b bs ih =>
    have hfirst : x ≠ a.toNat := by simpa using h 0 (Nat.zero_lt_succ _)
    rw [Memory.writeBytes, ih, Memory.read_write, if_neg hfirst]
    intro k hk
    rw [add_one_add_ofNat]
    exact h (k + 1) (Nat.succ_lt_succ hk)

/-- Bytes written are read back, where they do not run round the whole of memory. -/
theorem Memory.readBytes_writeBytes (m : Memory) (a : Word) (bs : List Byte) (h : bs.length ≤ 2 ^ 32) :
    (m.writeBytes a bs).readBytes bs.length a = some bs := by
  induction bs generalizing m a with
  | nil => rfl
  | cons b bs ih =>
    have hlen : bs.length < 2 ^ 32 := h
    have hfirst : ((m.write a.toNat b).writeBytes (a + 1#32) bs).read a.toNat = some b := by
      rw [Memory.read_writeBytes_of_ne, Memory.read_write, if_pos rfl]
      intro k hk
      rw [add_one_add_ofNat, BitVec.toNat_add, BitVec.toNat_ofNat]
      have := a.isLt
      omega
    simp only [Memory.writeBytes, List.length_cons, Memory.readBytes, hfirst, ih _ _ hlen.le]

theorem bytesOfUnit_length (set : InstrSet) (w : Word) : (bytesOfUnit set w).length = 4 := by
  cases set <;> rfl

theorem State.placeUnit_fetch (s : State) (set : InstrSet) (u : Word) :
    (s.placeUnit set u).fetch = some (bytesOfUnit set u) := by
  have hread := Memory.readBytes_writeBytes s.mem (alignPc set s.pc) (bytesOfUnit set u)
  rw [bytesOfUnit_length] at hread
  exact hread (by decide)

theorem State.placeUnit_instrSet (s : State) (set : InstrSet) (u : Word) : (s.placeUnit set u).instrSet = set := by
  cases set <;> rfl

/-- A unit is placed in a legal state: `pc` aligned for its set, `IT` zero in A32 state. -/
theorem State.placeUnit_legal (s : State) (set : InstrSet) (u : Word) : (s.placeUnit set u).outsideSpec = none := by
  refine (State.outsideSpec_eq_none_iff _).mpr ?_
  cases set with
  | a32 =>
    refine ⟨(State.pcAligned_of_a32 rfl).mpr ?_, .inr rfl⟩
    exact (BitVec.and_assoc _ _ _).trans BitVec.and_zero
  | t32 =>
    refine ⟨(State.pcAligned_of_t32 rfl).mpr ?_, .inl rfl⟩
    exact (BitVec.and_assoc _ _ _).trans BitVec.and_zero

/-- A placed unit that decodes is what the next step runs. -/
theorem step_placeUnit (s : State) {set : InstrSet} {u : Word} {i : Instr} {rest : List Byte}
    (hdec : decode set (bytesOfUnit set u) = .ok (i, rest)) : step (s.placeUnit set u) = exec i (s.placeUnit set u) := by
  refine step_of_decode_ok (rest := rest) (s.placeUnit_legal set u) (s.placeUnit_fetch set u) ?_
  rwa [State.placeUnit_instrSet]

/-- What the table's decoder reads is what the decoder reads from the unit's bytes. -/
theorem decode_of_decodeTableWord {nbits w : Nat} {i : Instr} (h : decodeTableWord nbits w = some i) :
    ∃ rest, decode (tableSet (BitVec.ofNat 32 (w % 2 ^ nbits)))
      (bytesOfUnit (tableSet (BitVec.ofNat 32 (w % 2 ^ nbits))) (BitVec.ofNat 32 (w % 2 ^ nbits))) = .ok (i, rest) := by
  simp only [decodeTableWord] at h
  split at h
  · rename_i j rest hdec
    obtain rfl : j = i := Option.some.inj h
    exact ⟨rest, hdec⟩
  · cases h

/-! ### Runs -/

theorem run_succ_of_next {k : Nat} {s t : State} (h : step s = .next t) : core.run (k + 1) s = core.run k t := by
  have hcore : core.step s = .next t := h
  simp only [Host.Core.run, hcore]

theorem run_succ_of_fault {k : Nat} {s : State} {r : Fault} (h : step s = .fault r) :
    core.run (k + 1) s = .fault r := by
  have hcore : core.step s = .fault r := h
  simp only [Host.Core.run, hcore]

theorem run_succ_of_refused {k : Nat} {s : State} {r : Refusal} (h : step s = .refused r) :
    core.run (k + 1) s = .refused r := by
  have hcore : core.step s = .refused r := h
  simp only [Host.Core.run, hcore]

end Sys2Proof.Machine

namespace Sys2Proof.Safety

open Sys2Proof.Machine

/-! ### What moving on does with the part before it -/

@[simp] theorem afterInstr_x (i : Instr) (s : State) : (afterInstr i s).x = s.x := rfl

theorem afterInstr_writeReg (i : Instr) (s : State) (d : Fin 15) (v : Word) :
    afterInstr i (s.writeReg d v) = (afterInstr i s).writeReg d v := by
  cases i <;> rfl

theorem afterInstr_noteDraw (i : Instr) (s : State) : afterInstr i s.noteDraw = (afterInstr i s).noteDraw := by
  cases i <;> rfl

/-! ### Either encoding by its condition (40_mrs.md R60, R61) -/

section Admitted

variable {P : Config.Params} {i : Instr} {s : State} {d : Fin 15}
  (hok : i.sbitsOk = true) (hd : destReg i.rd = some d) (ha : admitted P i s = true)

include hok hd ha

/-- An admitted `MRS` past its decode tests is the part under its condition, then `pc` and `IT` moved on. -/
theorem execWith_eq_onNext :
    execWith P i s = onNext (afterInstr i) (mrsIfPassed P.cuMrsSpsrUsrSys (conditionOf i s) d i.specReg s) :=
  execWith_of_admitted P i s d hok hd ha

theorem execWith_of_passes (hp : passes i s = true) :
    execWith P i s = onNext (afterInstr i) (mrsOperation P.cuMrsSpsrUsrSys d i.specReg s) :=
  (execWith_eq_onNext hok hd ha).trans (congrArg _ (if_pos hp))

theorem execWith_of_not_passes (hp : passes i s = false) : execWith P i s = .next (afterInstr i s) :=
  (execWith_eq_onNext hok hd ha).trans (congrArg _ (if_neg (Bool.eq_false_iff.mp hp)))

theorem execWith_cpsr (hr : i.specReg = .cpsr) (hp : passes i s = true) :
    execWith P i s = .next (afterInstr i (readCpsr d s)) := by
  rw [execWith_of_passes hok hd ha hp, hr]
  rfl

theorem execWith_spsr_of_some {v : Word} (hr : i.specReg = .spsr) (hp : passes i s = true)
    (hv : s.currentSpsr = some v) : execWith P i s = .next ((afterInstr i s).writeReg d v) := by
  rw [execWith_of_passes hok hd ha hp, hr, mrsOperation_spsr_of_some _ _ hv, onNext_next, afterInstr_writeReg]

/-- In User and System mode the `SPSR` form is what the open parameter says (R66). -/
theorem execWith_spsr_of_none (hr : i.specReg = .spsr) (hp : passes i s = true)
    (hm : s.pstate.m = .user ∨ s.pstate.m = .system) :
    execWith P i s = onNext (afterInstr i) (cuSpsrUsrSys P.cuMrsSpsrUsrSys s) := by
  rw [execWith_of_passes hok hd ha hp, hr, mrsOperation_spsr_of_none _ _ ((currentSpsr_eq_none_iff s).mpr hm)]

theorem execWith_spsr_of_undef (hr : i.specReg = .spsr) (hp : passes i s = true)
    (hm : s.pstate.m = .user ∨ s.pstate.m = .system) (hcu : P.cuMrsSpsrUsrSys = .undef) :
    execWith P i s = .fault .undefined := by
  rw [execWith_spsr_of_none hok hd ha hr hp hm, hcu]
  rfl

theorem execWith_spsr_of_nop (hr : i.specReg = .spsr) (hp : passes i s = true)
    (hm : s.pstate.m = .user ∨ s.pstate.m = .system) (hcu : P.cuMrsSpsrUsrSys = .nop) :
    execWith P i s = .next (afterInstr i s) := by
  rw [execWith_spsr_of_none hok hd ha hr hp hm, hcu]
  rfl

end Admitted

/-! ### What User mode cannot see (40_mrs.md R65 (b)) -/

/-- The status bits a User-mode read shows are a function of the fields User mode sees. -/
theorem psr32_and_userBits_congr {p q : PState} (h : sameUserFields p q) :
    psr32 p &&& 0xF8AF0000#32 = psr32 q &&& 0xF8AF0000#32 := by
  obtain ⟨hn, hz, hc, hv, hq, hge, _, _, h23, h21⟩ := h
  refine word_ext fun k hk => ?_
  rw [BitVec.getLsbD_and, BitVec.getLsbD_and, psr32_getLsbD p k hk, psr32_getLsbD q k hk]
  interval_cases k <;> simp [hn, hz, hc, hv, hq, hge, h23, h21]

/-- A next state seen alike, or the same stop: all the ways two outcomes can be alike. -/
theorem sameUserOutcome_iff (o o' : Result) :
    SameUserOutcome o o' ↔
      (∃ s t, o = .next s ∧ o' = .next t ∧ SameUserView s t) ∨ (∃ r, o = .fault r ∧ o' = .fault r) ∨
        ∃ r, o = .refused r ∧ o' = .refused r := by
  cases o <;> cases o' <;> simp [SameUserOutcome, eq_comm]

theorem sameUserOutcome_onNext {f : State → State} (hf : ∀ s t, SameUserView s t → SameUserView (f s) (f t))
    {o o' : Result} (h : SameUserOutcome o o') : SameUserOutcome (onNext f o) (onNext f o') := by
  rcases (sameUserOutcome_iff o o').mp h with ⟨s, t, rfl, rfl, hst⟩ | ⟨r, rfl, rfl⟩ | ⟨r, rfl, rfl⟩
  · exact hf s t hst
  · rfl
  · rfl

section SameView

variable {s t : State} (h : SameUserView s t)

include h

theorem sameUserView_writeReg (d : Fin 15) (v : Word) : SameUserView (s.writeReg d v) (t.writeReg d v) :=
  { h with x_eq := by rw [State.writeReg_x, State.writeReg_x, h.x_eq] }

theorem sameUserView_noteDraw : SameUserView s.noteDraw t.noteDraw :=
  { h with draws_eq := congrArg (· + 1) h.draws_eq }

theorem itAfter_of_sameUserView (i : Instr) : itAfter i s = itAfter i t := by
  obtain ⟨_, _, _, _, _, _, _, hit, _⟩ := h.fields
  cases i <;> simp [itAfter, hit]

theorem sameUserView_afterInstr (i : Instr) : SameUserView (afterInstr i s) (afterInstr i t) := by
  obtain ⟨hn, hz, hc, hv, hq, hge, ht, _, h23, h21⟩ := h.fields
  exact { h with
    pc_eq := congrArg (· + 4#32) h.pc_eq
    fields := ⟨hn, hz, hc, hv, hq, hge, ht, itAfter_of_sameUserView h i, h23, h21⟩ }

theorem passes_of_sameUserView (i : Instr) : passes i s = passes i t := by
  obtain ⟨hn, hz, hc, hv, _, _, _, hit, _⟩ := h.fields
  cases i <;> simp [passes, conditionOf, conditionPassed, hn, hz, hc, hv, hit]

/-- A User-mode read of the `CPSR` writes the same value: the status bits shown are seen alike, the draws are equal. -/
theorem sameUserView_readCpsr (d : Fin 15) : SameUserView (readCpsr d s) (readCpsr d t) := by
  have hdraw : s.unknown = t.unknown := congrArg Config.unknown32 h.draws_eq
  rw [readCpsr_of_user d s h.user_left, readCpsr_of_user d t h.user_right, psr32_and_userBits_congr h.fields, hdraw]
  exact sameUserView_writeReg (sameUserView_noteDraw h) d _

/-- In User mode the `CPSR` form shows nothing hidden, and the `SPSR` form reads no SPSR. -/
theorem sameUserOutcome_mrsOperation (cu : Config.CuMrsSpsr) (d : Fin 15) (r : SpecReg) :
    SameUserOutcome (mrsOperation cu d r s) (mrsOperation cu d r t) := by
  cases r with
  | cpsr => exact sameUserView_readCpsr h d
  | spsr =>
    rw [mrsOperation_spsr_of_none cu d ((currentSpsr_eq_none_iff s).mpr (.inl h.user_left)),
      mrsOperation_spsr_of_none cu d ((currentSpsr_eq_none_iff t).mpr (.inl h.user_right))]
    cases cu with
    | undef => rfl
    | nop => exact h

/-- One instruction: the decode tests do not read the state, and the condition and the operation go alike. -/
theorem sameUserOutcome_exec (i : Instr) : SameUserOutcome (exec i s) (exec i t) := by
  cases hok : i.sbitsOk with
  | false =>
    rw [exec_of_sbitsOk_false s hok, exec_of_sbitsOk_false t hok]
    rfl
  | true =>
    by_cases hrd : i.rd = 15#4
    · rw [exec_of_rd15 s hok hrd, exec_of_rd15 t hok hrd]
      rfl
    · obtain ⟨d, hd⟩ := exists_destReg hrd
      have hsa := admitted_params i s
      have hta := admitted_params i t
      rw [exec_eq_execWith, exec_eq_execWith]
      cases hp : passes i s with
      | false =>
        have hpt : passes i t = false := (passes_of_sameUserView h i).symm.trans hp
        rw [execWith_of_not_passes hok hd hsa hp, execWith_of_not_passes hok hd hta hpt]
        exact sameUserView_afterInstr h i
      | true =>
        have hpt : passes i t = true := (passes_of_sameUserView h i).symm.trans hp
        rw [execWith_of_passes hok hd hsa hp, execWith_of_passes hok hd hta hpt]
        exact sameUserOutcome_onNext (fun _ _ hu => sameUserView_afterInstr hu i)
          (sameUserOutcome_mrsOperation h _ d _)

theorem outsideSpec_of_sameUserView : s.outsideSpec = t.outsideSpec := by
  obtain ⟨_, _, _, _, _, _, ht, hit, _⟩ := h.fields
  simp [State.outsideSpec, State.pcAligned, h.pc_eq, ht, hit]

theorem fetch_of_sameUserView : s.fetch = t.fetch := by
  simp only [State.fetch, h.mem_eq, h.pc_eq]

theorem instrSet_of_sameUserView : s.instrSet = t.instrSet := by
  obtain ⟨_, _, _, _, _, _, ht, _⟩ := h.fields
  simp only [State.instrSet, ht]

/-- One step: legality, fetch and decoder are the same, and so is the instruction run. -/
theorem sameUserOutcome_step : SameUserOutcome (step s) (step t) := by
  have hspec := outsideSpec_of_sameUserView h
  have hfetch := fetch_of_sameUserView h
  cases hs : s.outsideSpec with
  | some r =>
    rw [step_of_outsideSpec hs, step_of_outsideSpec (hspec.symm.trans hs)]
    rfl
  | none =>
    have ht : t.outsideSpec = none := hspec.symm.trans hs
    cases hsf : s.fetch with
    | none =>
      rw [step_of_fetch_eq_none hs hsf, step_of_fetch_eq_none ht (hfetch.symm.trans hsf)]
      rfl
    | some bytes =>
      have htf : t.fetch = some bytes := hfetch.symm.trans hsf
      cases hsd : decode s.instrSet bytes with
      | error why =>
        have htd : decode t.instrSet bytes = .error why := instrSet_of_sameUserView h ▸ hsd
        rw [step_of_decode_error hs hsf hsd, step_of_decode_error ht htf htd]
        rfl
      | ok p =>
        have htd : decode t.instrSet bytes = .ok p := instrSet_of_sameUserView h ▸ hsd
        rw [step_of_decode_ok hs hsf hsd, step_of_decode_ok ht htf htd]
        exact sameUserOutcome_exec h p.1

end SameView

/-- Settles O37, by induction on the number of steps: one step keeps the two states alike or stops both alike. -/
theorem userModeCannotSeeHiddenFields : Obligations.UserModeCannotSeeHiddenFields := by
  intro k
  induction k with
  | zero => exact fun s t h => h
  | succ k ih =>
    intro s t h
    rcases (sameUserOutcome_iff _ _).mp (sameUserOutcome_step h) with ⟨u, v, hs, ht, huv⟩ | ⟨r, hs, ht⟩ | ⟨r, hs, ht⟩
    · rw [run_succ_of_next hs, run_succ_of_next ht]
      exact ih u v huv
    · rw [run_succ_of_fault hs, run_succ_of_fault ht]
      rfl
    · rw [run_succ_of_refused hs, run_succ_of_refused ht]
      rfl

/-! ### The operation, under every value of the parameters -/

/-- Settles O14: the `SPSR` form by whether the mode has an SPSR, the `CPSR` form by its bits. -/
theorem operationAsPseudocode : Obligations.OperationAsPseudocode := by
  refine ⟨rfl, rfl, fun cu d s => ⟨fun hm => ?_, fun hu hs => ?_, readCpsr d s, rfl, readCpsr_restored d s,
    fun d' hne => readCpsr_readReg_ne d d' s hne, readCpsr_getLsbD d s⟩⟩
  · exact mrsOperation_spsr_of_none cu d ((currentSpsr_eq_none_iff_modeBits s).mpr hm)
  · have hsome : s.currentSpsr ≠ none := mt (currentSpsr_eq_none_iff_modeBits s).mp (not_or.mpr ⟨hu, hs⟩)
    obtain ⟨v, hv⟩ := Option.ne_none_iff_exists'.mp hsome
    exact ⟨v, hv, mrsOperation_spsr_of_some cu d hv⟩

/-- Settles O15: the result outside User mode and in it, read under each mask. -/
theorem cpsrFormResults : Obligations.CpsrFormResults := by
  refine ⟨by decide, fun P i s d hr hok hd ha hp => ⟨_, execWith_cpsr hok hd ha hr hp, fun hm => ?_, fun hm => ?_⟩⟩
  · rw [afterInstr_readReg, readCpsr_of_ne_user d s hm, State.readReg_writeReg_self]
    have bit := psr32_getLsbD s.pstate
    refine ⟨rfl, (BitVec.and_assoc _ _ _).trans BitVec.and_zero, ?_,
      (getLsbD_and_of_set rfl).trans (bit 9 (by decide)), (getLsbD_and_of_set rfl).trans (bit 8 (by decide)),
      (getLsbD_and_of_set rfl).trans (bit 7 (by decide)), (getLsbD_and_of_set rfl).trans (bit 6 (by decide))⟩
    rw [BitVec.extractLsb'_and, psr32_mode]
    exact BitVec.and_allOnes
  · rw [afterInstr_readReg, readCpsr_of_user d s hm, State.readReg_writeReg_self]
    simp only [or_masked_and]
    exact ⟨by simp, by simp, by simp⟩

/-- Settles O16: a failed condition skips the operation; a passed one reads the mode's SPSR or meets the parameter. -/
theorem spsrFormUnderEitherConstraint : Obligations.SpsrFormUnderEitherConstraint := by
  intro P i s d hr hok hd ha
  exact ⟨execWith_spsr_of_undef hok hd ha hr, execWith_spsr_of_nop hok hd ha hr, execWith_of_not_passes hok hd ha,
    fun v hp hv => execWith_spsr_of_some hok hd ha hr hp hv⟩

/-! ### What each instruction does under this model's parameters -/

/-- Settles O18: the masked status value is written, then `pc` and `IT` move on. -/
theorem cpsrReadOutsideUserMode : Obligations.CpsrReadOutsideUserMode := by
  intro i s d hr hok hd hp hm
  rw [exec_eq_execWith, execWith_cpsr hok hd (admitted_params i s) hr hp, readCpsr_of_ne_user d s hm,
    afterInstr_writeReg]
  rfl

/-- Settles O19: as outside User mode, with the drawn bits in and one draw taken. -/
theorem cpsrReadInUserMode : Obligations.CpsrReadInUserMode := by
  intro i s d hr hok hd hp hm
  rw [exec_eq_execWith, execWith_cpsr hok hd (admitted_params i s) hr hp, readCpsr_of_user d s hm,
    afterInstr_writeReg, afterInstr_noteDraw]
  rfl

/-- Settles O20: the mode's SPSR is found by cases on the mode, and is written whole. -/
theorem spsrReadInItsMode : Obligations.SpsrReadInItsMode := by
  intro i s d hr hok hd hp hu hs
  refine (exec_eq_execWith i s).trans (execWith_spsr_of_some hok hd (admitted_params i s) hr hp ?_)
  unfold State.currentSpsr
  cases hm : s.pstate.m with
  | user => exact absurd hm hu
  | system => exact absurd hm hs
  | fiq | irq | supervisor | monitor | abort | hyp | undefined => rfl

/-- Settles O21: both values of the open parameter, as in O16. -/
theorem spsrReadInUserOrSystemMode : Obligations.SpsrReadInUserOrSystemMode := by
  intro i s d hr hok hd hp hm
  rw [exec_eq_execWith]
  cases hcu : Config.cuMrsSpsrUsrSys with
  | undef => exact execWith_spsr_of_undef hok hd (admitted_params i s) hr hp hm hcu
  | nop => exact execWith_spsr_of_nop hok hd (admitted_params i s) hr hp hm hcu

/-- Settles O22: the operation is skipped, whatever it would have done. -/
theorem failedConditionOnlyMovesOn : Obligations.FailedConditionOnlyMovesOn := by
  intro i s d hok hd hp
  exact (exec_eq_execWith i s).trans (execWith_of_not_passes hok hd (admitted_params i s) hp)

/-- Settles O24: with `IT` zero the two encodings have one meaning. -/
theorem t1OutsideItBlockIsA1Always : Obligations.T1OutsideItBlockIsA1Always :=
  fun r rd ok _ hit => mrsT1_of_it_zero params r rd ok hit

/-- Settles O25: past the decode tests the admission test refuses; outside an IT block both values give the A1 meaning,
which does not read the parameter. -/
theorem itBlockRefusedUnlessAdmitted : Obligations.ItBlockRefusedUnlessAdmitted := by
  refine fun cu r rd ok s => ⟨fun hok hrd hit => ?_, fun hit => ?_⟩
  · obtain ⟨d, hd⟩ := exists_destReg hrd
    subst hok
    exact (withDest_of_dest rd d _ hd).trans (if_pos ⟨hit, rfl⟩)
  · rw [mrsT1_of_it_zero _ r rd ok hit, mrsT1_of_it_zero _ r rd ok hit]
    rfl

/-! ### The step -/

/-- Settles O31: a unit is placed in a legal state of its own set, and its bytes are what is fetched. -/
theorem placedWordRunsNext : Obligations.PlacedWordRunsNext := by
  intro s w i h
  obtain ⟨rest, hdec⟩ := decode_of_decodeTableWord h
  exact step_placeUnit s hdec

/-- Settles O10: the even conditions are the base tests, the odd ones their negations, 1111 passes always. -/
theorem conditionTable : Obligations.ConditionTable := by
  intro p
  have even (cond : BitVec 4) := @conditionPassed_of_even cond p
  have odd (cond : BitVec 4) := @conditionPassed_of_odd cond p
  refine ⟨even 0 rfl, odd 1 (by decide) (by decide), even 2 rfl, odd 3 (by decide) (by decide), even 4 rfl,
    odd 5 (by decide) (by decide), even 6 rfl, odd 7 (by decide) (by decide), even 8 rfl,
    (odd 9 (by decide) (by decide)).trans ?_, even 10 rfl, odd 11 (by decide) (by decide), even 12 rfl,
    (odd 13 (by decide) (by decide)).trans ?_, even 14 rfl, rfl⟩
  · exact (Bool.not_and _ _).trans (congrArg _ (Bool.not_not _))
  · exact (Bool.not_and _ _).trans (congrArg _ (Bool.not_not _))

/-- Settles O27: the state is legal, and the four bytes fetched are the unit's in the order of its set. -/
theorem stepRunsTheDecodedInstruction : Obligations.StepRunsTheDecodedInstruction := by
  refine fun s w i haligned => ⟨fun ht hit hdec h0 h1 h2 h3 => ?_, fun ht hdec h0 h1 h2 h3 => ?_⟩
  · have hset := State.instrSet_of_a32 ht
    have hlegal := s.outsideSpec_eq_none_iff.mpr ⟨haligned, .inr hit⟩
    refine step_of_unit hlegal (w := w) ?_ (hset ▸ hdec)
    rw [hset]
    exact State.fetch_of_read h0 h1 h2 h3
  · have hset := State.instrSet_of_t32 ht
    have hlegal := s.outsideSpec_eq_none_iff.mpr ⟨haligned, .inl ht⟩
    refine step_of_unit hlegal (w := w) ?_ (hset ▸ hdec)
    rw [hset]
    exact State.fetch_of_read h0 h1 h2 h3

end Sys2Proof.Safety
end

section
/-! PROOFS. The family `60_exceptions.md`: every way an `MRS` can stop, and what a run of completed steps keeps. -/

namespace Sys2Proof.Machine

/-! ### Runs -/

/-- The zeroth run goes nowhere. -/
theorem run_zero_eq_next_iff (s t : State) : core.run 0 s = .next t ↔ t = s := by
  refine ⟨fun h => ?_, fun h => h ▸ rfl⟩
  cases h
  rfl

/-- A run goes on only through a first step that goes on. -/
theorem run_succ_eq_next_iff (k : Nat) (s t : State) :
    core.run (k + 1) s = .next t ↔ ∃ u, step s = .next u ∧ core.run k u = .next t := by
  cases hs : step s with
  | next u => simp [run_succ_of_next hs]
  | fault r => simp [run_succ_of_fault hs]
  | refused r => simp [run_succ_of_refused hs]

/-! ### Where a stop can come from (60_exceptions.md R80, R81) -/

/-- What follows a part of a step adds no fault of its own. -/
theorem onNext_eq_fault_iff (f : State → State) (o : Result) (r : Fault) : onNext f o = .fault r ↔ o = .fault r := by
  cases o <;> simp [onNext]

/-- What follows a part of a step adds no refusal of its own. -/
theorem onNext_eq_refused_iff (f : State → State) (o : Result) (r : Refusal) :
    onNext f o = .refused r ↔ o = .refused r := by
  cases o <;> simp [onNext]

/-- The one fault of the operation is the `SPSR` form in a mode without an SPSR, under `Constraint_UNDEF` (40_mrs.md R66). -/
theorem mrsOperation_eq_fault_iff (cu : Config.CuMrsSpsr) (d : Fin 15) (r : SpecReg) (s : State) (f : Fault) :
    mrsOperation cu d r s = .fault f ↔
      f = .undefined ∧ r = .spsr ∧ (s.pstate.m = .user ∨ s.pstate.m = .system) ∧ cu = .undef := by
  rw [← currentSpsr_eq_none_iff]
  cases r with
  | cpsr => simp [mrsOperation]
  | spsr =>
    cases hv : s.currentSpsr with
    | some v => simp [mrsOperation_spsr_of_some cu d hv]
    | none =>
      rw [mrsOperation_spsr_of_none cu d hv]
      cases cu <;> simp [cuSpsrUsrSys, raiseUndefined, eq_comm]

theorem mrsOperation_ne_refused (cu : Config.CuMrsSpsr) (d : Fin 15) (r : SpecReg) (s : State) (why : Refusal) :
    mrsOperation cu d r s ≠ .refused why := by
  cases r with
  | cpsr => simp [mrsOperation]
  | spsr =>
    cases hv : s.currentSpsr with
    | some v => simp [mrsOperation_spsr_of_some cu d hv]
    | none =>
      rw [mrsOperation_spsr_of_none cu d hv]
      cases cu <;> simp [cuSpsrUsrSys, raiseUndefined]

end Sys2Proof.Machine

namespace Sys2Proof.Safety

open Sys2Proof.Machine

/-- Settles O36, by induction on the number of steps: the first step has the frame of O32, the rest of the run has the
induction hypothesis, and the two distances add up. -/
theorem runsAreStraightLine : Obligations.RunsAreStraightLine := by
  intro k
  induction k with
  | zero =>
    intro s t h
    obtain rfl := (run_zero_eq_next_iff s t).mp h
    exact ⟨(BitVec.add_zero _).symm, rfl, rfl, rfl⟩
  | succ k ih =>
    intro s t h
    obtain ⟨u, hstep, hrun⟩ := (run_succ_eq_next_iff k s t).mp h
    obtain ⟨hpc, _, hpstate, _, hspsr, hmem, _⟩ := stepChangesOneRegisterAtMost s u hstep
    obtain ⟨ihpc, ihpstate, ihspsr, ihmem⟩ := ih u t hrun
    refine ⟨?_, ?_, ihspsr.trans hspsr, ihmem.trans hmem⟩
    · rw [ihpc, hpc, Nat.mul_succ, Nat.add_comm, BitVec.ofNat_add, BitVec.add_assoc]
    · rw [ihpstate, hpstate]

/-! ### How an `MRS` stops, under every value of the parameters (60_exceptions.md R80 to R85) -/

theorem admitted_eq_false_iff (P : Config.Params) (i : Instr) (s : State) :
    admitted P i s = false ↔ i.set = .t32 ∧ s.pstate.it ≠ 0#8 ∧ P.admitItBlock = false := by
  cases i <;> simp [admitted, Instr.set, and_comm]

section PastDecodeTests

variable {P : Config.Params} {i : Instr} {s : State} {d : Fin 15}
  (hok : i.sbitsOk = true) (hd : destReg i.rd = some d)

include hok hd

/-- Past the decode tests an instruction that is not admitted is refused, whatever its condition (40_mrs.md R61). -/
theorem execWith_of_not_admitted (ha : admitted P i s = false) : execWith P i s = .refused .itBlockNotAdmitted := by
  obtain ⟨hset, hit, hadm⟩ := (admitted_eq_false_iff P i s).mp ha
  cases i with
  | mrsA1 => cases hset
  | mrsT1 r rd ok =>
    obtain rfl : ok = true := hok
    exact (withDest_of_dest rd d _ hd).trans (if_pos ⟨hit, hadm⟩)

/-- An admitted instruction faults only where its condition passes and the operation faults. -/
theorem execWith_eq_fault_iff_of_admitted (ha : admitted P i s = true) (f : Fault) :
    execWith P i s = .fault f ↔
      f = .undefined ∧ i.specReg = .spsr ∧ passes i s = true ∧
        (s.pstate.m = .user ∨ s.pstate.m = .system) ∧ P.cuMrsSpsrUsrSys = .undef := by
  cases hp : passes i s with
  | false => simp [execWith_of_not_passes hok hd ha hp]
  | true => simp [execWith_of_passes hok hd ha hp, onNext_eq_fault_iff, mrsOperation_eq_fault_iff]

theorem execWith_ne_refused_of_admitted (ha : admitted P i s = true) (r : Refusal) : execWith P i s ≠ .refused r := by
  cases hp : passes i s with
  | false => simp [execWith_of_not_passes hok hd ha hp]
  | true => simp [execWith_of_passes hok hd ha hp, onNext_eq_refused_iff, mrsOperation_ne_refused]

end PastDecodeTests

/-- The one refusal of an `MRS`: past both decode tests, not admitted. -/
theorem execWith_eq_refused_iff (P : Config.Params) (i : Instr) (s : State) (r : Refusal) :
    execWith P i s = .refused r ↔
      r = .itBlockNotAdmitted ∧ i.sbitsOk = true ∧ i.rd ≠ 0b1111#4 ∧ admitted P i s = false := by
  cases hok : i.sbitsOk with
  | false => simp [execWith_of_sbitsOk_false P s hok]
  | true =>
    by_cases hrd : i.rd = 0b1111#4
    · simp [execWith_of_rd15 P s hok hrd, hrd]
    · obtain ⟨d, hd⟩ := exists_destReg hrd
      cases ha : admitted P i s with
      | false => simp [execWith_of_not_admitted hok hd ha, hrd, eq_comm (a := r)]
      | true => simp [execWith_ne_refused_of_admitted hok hd ha]

/-- The three faults of an `MRS`, in the order of their tests. -/
theorem execWith_eq_fault_iff (P : Config.Params) (i : Instr) (s : State) (f : Fault) :
    execWith P i s = .fault f ↔
      (f = .unpredictable .shouldBeBits ∧ i.sbitsOk = false) ∨
      (f = .unpredictable .rd15 ∧ i.sbitsOk = true ∧ i.rd = 0b1111#4) ∨
      (f = .undefined ∧ i.sbitsOk = true ∧ i.rd ≠ 0b1111#4 ∧ admitted P i s = true ∧ i.specReg = .spsr ∧
        passes i s = true ∧ (s.pstate.m = .user ∨ s.pstate.m = .system) ∧ P.cuMrsSpsrUsrSys = .undef) := by
  cases hok : i.sbitsOk with
  | false => simp [execWith_of_sbitsOk_false P s hok, eq_comm (a := f)]
  | true =>
    by_cases hrd : i.rd = 0b1111#4
    · simp [execWith_of_rd15 P s hok hrd, hrd, eq_comm (a := f)]
    · obtain ⟨d, hd⟩ := exists_destReg hrd
      cases ha : admitted P i s with
      | false => simp [execWith_of_not_admitted hok hd ha, hrd]
      | true => simp [execWith_eq_fault_iff_of_admitted hok hd ha, hrd]

/-- Settles O26: the refusal is the admission test, spelled out; `exec` admits every `MRS`, so it has the faults alone. -/
theorem mrsStopsOnlyAsListed : Obligations.MrsStopsOnlyAsListed := by
  refine ⟨fun P i s => ⟨fun r => ?_, execWith_eq_fault_iff P i s⟩, fun i s => ⟨fun r => ?_, fun f h => ?_⟩⟩
  · rw [execWith_eq_refused_iff, admitted_eq_false_iff]
    tauto
  · rw [exec_eq_execWith, ne_eq, execWith_eq_refused_iff]
    simp [admitted_params]
  · rw [exec_eq_execWith] at h
    rcases (execWith_eq_fault_iff params i s f).mp h with h | h | ⟨hf, hok, hrd, _, h⟩
    · exact .inl h
    · exact .inr (.inl h)
    · exact .inr (.inr ⟨hf, hok, hrd, h⟩)

/-- Settles O23: the decode tests stand before the admission test and the condition, under every value of the parameters,
those of `exec` among them. -/
theorem decodeTestsComeFirst : Obligations.DecodeTestsComeFirst :=
  ⟨fun P _ s => ⟨execWith_of_sbitsOk_false P s, execWith_of_rd15 P s⟩,
    fun _ s => ⟨exec_of_sbitsOk_false s, exec_of_rd15 s⟩⟩

end Sys2Proof.Safety
end

section
/-! PROOFS. The family `70_reset_and_hazards.md`: where a run watched for `END_PC` ends. -/

namespace Sys2Proof.Safety

open Sys2Proof.Machine

/-- One step of a watched run: it ends where the step lands, or goes on from there (70_reset_and_hazards.md R97). -/
theorem runTo_succ_eq_final_iff (endPc : Word) (k : Nat) (s t : State) :
    runTo endPc (k + 1) s = .final t ↔
      (step s = .next t ∧ t.pc = endPc) ∨ ∃ u, step s = .next u ∧ u.pc ≠ endPc ∧ runTo endPc k u = .final t := by
  cases hs : step s with
  | fault r => simp [runTo, hs]
  | refused r => simp [runTo, hs]
  | next u =>
    by_cases hu : u.pc = endPc
    · have hends : u = t → t.pc = endPc := fun hut => hut ▸ hu
      simpa [runTo, hs, hu] using hends
    · have hgoes : u = t → t.pc ≠ endPc := fun hut => hut ▸ hu
      simpa [runTo, hs, hu] using fun hut hend => absurd hend (hgoes hut)

/-- `j` completed steps lead from `s` to `t`, the first state on the way whose `pc` is `END_PC` (R97); `s` itself is not
looked at. -/
def FirstArrival (endPc : Word) (j : Nat) (s t : State) : Prop :=
  core.run j s = .next t ∧ t.pc = endPc ∧ ∀ j' u, 1 ≤ j' → j' < j → core.run j' s = .next u → u.pc ≠ endPc

theorem run_one_eq_next_iff (s t : State) : core.run 1 s = .next t ↔ step s = .next t := by
  simp [run_succ_eq_next_iff, run_zero_eq_next_iff, eq_comm (a := t)]

theorem firstArrival_one_iff (endPc : Word) (s t : State) :
    FirstArrival endPc 1 s t ↔ step s = .next t ∧ t.pc = endPc := by
  have hnone : ∀ j' u, 1 ≤ j' → j' < 1 → core.run j' s = .next u → u.pc ≠ endPc := by omega
  rw [FirstArrival, run_one_eq_next_iff, and_iff_left hnone]

/-- An arrival after the first step is an arrival from where that step lands, away from `END_PC`. -/
theorem firstArrival_succ_iff (endPc : Word) {j : Nat} (hj : 1 ≤ j) (s t : State) :
    FirstArrival endPc (j + 1) s t ↔ ∃ u, step s = .next u ∧ u.pc ≠ endPc ∧ FirstArrival endPc j u t := by
  constructor
  · rintro ⟨hrun, hend, hbefore⟩
    obtain ⟨u, hstep, hrest⟩ := (run_succ_eq_next_iff j s t).mp hrun
    refine ⟨u, hstep, hbefore 1 u le_rfl (by omega) ((run_one_eq_next_iff s u).mpr hstep), hrest, hend, ?_⟩
    intro j' v _ hlt hv
    exact hbefore (j' + 1) v (by omega) (by omega) ((run_succ_eq_next_iff j' s v).mpr ⟨u, hstep, hv⟩)
  · rintro ⟨u, hstep, hu, hrest, hend, hbefore⟩
    refine ⟨(run_succ_eq_next_iff j s t).mpr ⟨u, hstep, hrest⟩, hend, fun j' v hpos hlt hv => ?_⟩
    obtain ⟨i, rfl⟩ := Nat.exists_eq_add_of_le' hpos
    obtain ⟨w, hw, hrun⟩ := (run_succ_eq_next_iff i s v).mp hv
    obtain rfl : u = w := by simpa [hstep] using hw
    cases i with
    | zero => rwa [(run_zero_eq_next_iff u v).mp hrun]
    | succ i => exact hbefore (i + 1) v (by omega) (by omega) hrun

/-- A watched run is final exactly at a first arrival within its bound: the first step arrives, or the rest of the run
does. -/
theorem runTo_eq_final_iff_firstArrival (endPc : Word) (k : Nat) (s t : State) :
    runTo endPc k s = .final t ↔ ∃ j, 1 ≤ j ∧ j ≤ k ∧ FirstArrival endPc j s t := by
  induction k generalizing s with
  | zero =>
    constructor
    · intro h
      cases h
    · rintro ⟨j, hpos, hle, _⟩
      omega
  | succ k ih =>
    rw [runTo_succ_eq_final_iff, ← firstArrival_one_iff]
    constructor
    · rintro (h | ⟨u, hstep, hu, hrun⟩)
      · exact ⟨1, le_rfl, by omega, h⟩
      · obtain ⟨j, hpos, hle, h⟩ := (ih u).mp hrun
        exact ⟨j + 1, by omega, by omega, (firstArrival_succ_iff endPc hpos s t).mpr ⟨u, hstep, hu, h⟩⟩
    · rintro ⟨j, hpos, hle, h⟩
      obtain ⟨i, rfl⟩ := Nat.exists_eq_add_of_le' hpos
      cases i with
      | zero => exact .inl h
      | succ i =>
        obtain ⟨u, hstep, hu, harr⟩ := (firstArrival_succ_iff endPc (by omega) s t).mp h
        exact .inr ⟨u, hstep, hu, (ih u).mpr ⟨i + 1, by omega, by omega, harr⟩⟩

/-- Settles O38: a watched run is final exactly at a first arrival, spelled out. -/
theorem runIsFinalExactlyAtEndPc : Obligations.RunIsFinalExactlyAtEndPc := by
  intro endPc k s t
  rw [runTo_eq_final_iff_firstArrival]
  constructor
  · rintro ⟨j, hpos, hle, hrun, hend, hbefore⟩
    exact ⟨hend, j, hpos, hle, hrun, hbefore⟩
  · rintro ⟨hend, j, hpos, hle, hrun, hbefore⟩
    exact ⟨j, hpos, hle, hrun, hend, hbefore⟩

end Sys2Proof.Safety
end

section
/-! PROOFS. The family `other`: the encodings as sums, and what the state holds at reset. -/

namespace Sys2Proof

/-! ### A word as the sum of its fields (95_test_vectors.md sections 2.1, 2.2) -/

theorem toNat_placeAt {n : Nat} (lo : Nat) (field : BitVec n) (hfit : lo + n ≤ 32) :
    (placeAt lo field).toNat = field.toNat * 2 ^ lo := by
  have hlt : field.toNat * 2 ^ lo < 2 ^ 32 :=
    calc field.toNat * 2 ^ lo < 2 ^ n * 2 ^ lo := Nat.mul_lt_mul_of_pos_right field.isLt (Nat.two_pow_pos lo)
      _ = 2 ^ (lo + n) := by rw [Nat.mul_comm, Nat.pow_add]
      _ ≤ 2 ^ 32 := Nat.pow_le_pow_right Nat.two_pos hfit
  rw [placeAt, BitVec.toNat_shiftLeft, BitVec.toNat_setWidth_of_le (by omega), Nat.shiftLeft_eq, Nat.mod_eq_of_lt hlt]

/-- A field put where the word holds zeros adds its own number: nothing carries. -/
theorem toNat_or_placeAt {w : Word} {n : Nat} (lo : Nat) (field : BitVec n) (hfit : lo + n ≤ 32)
    (hfree : w.extractLsb' lo n = 0#n) :
    (w ||| placeAt lo field).toNat = w.toNat + field.toNat * 2 ^ lo := by
  have hdisjoint : w &&& placeAt lo field = 0#32 := by
    rw [← placeAt_extractLsb'_and, hfree, BitVec.zero_and]
    simp [placeAt]
  rw [← BitVec.add_eq_or_of_and_eq_zero _ _ hdisjoint, BitVec.toNat_add_of_and_eq_zero hdisjoint,
    toNat_placeAt lo field hfit]

section EncodedSums

variable (cond : BitVec 4) (r : SpecReg) (rd : BitVec 4)

theorem toNat_bitOfSpecReg_mul (k : Nat) : (bitOfSpecReg r).toNat * 2 ^ k = if r = .spsr then 2 ^ k else 0 := by
  cases r <;> simp [bitOfSpecReg]

theorem encode_mrsA1_toNat :
    (encode (.mrsA1 cond r rd true)).toNat =
      cond.toNat * 2 ^ 28 + 0b00010 * 2 ^ 23 + (bitOfSpecReg r).toNat * 2 ^ 22 + 0b1111 * 2 ^ 16 +
        rd.toNat * 2 ^ 12 := by
  rw [encode, toNat_or_placeAt, toNat_or_placeAt, toNat_or_placeAt, toNat_or_placeAt, toNat_placeAt]
  · rfl
  all_goals simp [BitVec.extractLsb'_or, extractLsb'_placeAt_of_disjoint]

theorem encode_mrsT1_toNat :
    (encode (.mrsT1 r rd true)).toNat =
      0b11110011111 * 2 ^ 21 + (bitOfSpecReg r).toNat * 2 ^ 20 + 0b1111 * 2 ^ 16 + 0b10 * 2 ^ 14 +
        rd.toNat * 2 ^ 8 := by
  rw [encode, toNat_or_placeAt, toNat_or_placeAt, toNat_or_placeAt, toNat_or_placeAt, toNat_placeAt]
  · rfl
  all_goals simp [BitVec.extractLsb'_or, extractLsb'_placeAt_of_disjoint]

end EncodedSums

/-- Settles O9: the fixed cells of each diagram add up to the constant of its formula. -/
theorem encodingFormulas : Obligations.EncodingFormulas := by
  intro cond rd r
  rw [encode_mrsA1_toNat, encode_mrsT1_toNat, toNat_bitOfSpecReg_mul, toNat_bitOfSpecReg_mul]
  omega

end Sys2Proof

namespace Sys2Proof.Machine

/-! ### The state at reset (10_state.md section 7) -/

theorem State.reset_readReg (d : Fin 15) : State.reset.readReg d = 0#32 := by
  simp [State.readReg, State.reset]

/-- Every mode that has an SPSR finds 0 in it at reset. -/
theorem spsrOfMode_reset {m : Mode} {v : Word} (h : spsrOfMode SpsrFile.reset m = some v) : v = 0#32 := by
  cases m
  case user | system => cases h
  all_goals exact (Option.some.inj h).symm

end Sys2Proof.Machine

namespace Sys2Proof.Safety

open Sys2Proof.Machine

/-- Settles O35: the values of the reset state, field by field. -/
theorem resetValues : Obligations.ResetValues :=
  ⟨State.reset_readReg, rfl, by decide, rfl, fun _ _ => spsrOfMode_reset, Memory.read_nil⟩

end Sys2Proof.Safety
end
